-- ==== Sys2Proof/Word.lean ====
section
/-! DEFINITION. The fixed bit widths of the block (00_scope.md R6): one name per kind of value. Every value is unsigned
(00_scope.md section 5), and bit 0 is the least significant bit. -/

namespace Sys2Proof

/-- BYTE_BITS = 8: one data byte `D[s][k]` (R6, R12). -/
abbrev Byte := BitVec 8

/-- ADDR_WIDTH = 32: a byte address of READ or WRITE; every 32-bit value is legal (R22). -/
abbrev Addr := BitVec 32

/-- WDATA_BITS = 32: the write data word, four bytes (R6, R41). -/
abbrev Word := BitVec 32

/-- OFFSET_BITS = 2: the byte position in a block, address bits [1:0] (R40). -/
abbrev Offset := BitVec 2

/-- SET_BITS = 4: the line index, address bits [5:2] (R40). -/
abbrev SetIndex := BitVec 4

/-- TAG_BITS = 26: address bits [31:6] (R6, R11, R40). -/
abbrev Tag := BitVec 26

/-- A request word, `op[65:64] addr[63:32] wdata[31:0]` (30_encoding.md R37). -/
abbrev RequestWord := BitVec 66

/-- The data block of one line: `D[s] = [D[s][0], D[s][1], D[s][2], D[s][3]]` (R12). -/
abbrev Block := Vector Byte 4

end Sys2Proof
end

