-- ==== Sys2Proof/Config.lean ====
section
/-! DEFINITION. What is fixed for the hardware (its geometry, 00_scope.md R6 to R8) and what the spec leaves free (the tag
and data contents a RESET leaves, 10_state.md R21). -/

namespace Sys2Proof

/-- The parameters of 00_scope.md R6. They are constants of the hardware and no inputs (R7); this record exists so that a
configuration can be written down and refused (WellFormed.lean). -/
structure Geometry where
  addrWidth : Nat
  byteBits : Nat
  blockBytes : Nat
  offsetBits : Nat
  setBits : Nat
  numLines : Nat
  tagBits : Nat
  associativity : Nat
  wdataBits : Nat
  deriving DecidableEq, Repr

namespace Config

/-- The values of R6's table. -/
def geometry : Geometry where
  addrWidth := 32
  byteBits := 8
  blockBytes := 4
  offsetBits := 2
  setBits := 4
  numLines := 16
  tagBits := 26
  associativity := 1
  wdataBits := 32

/-- FREE VALUE. What the `draw`-th RESET leaves in `T[set]`: "unspecified; a model draws any 26-bit value" (R21, R86, U1).
It has no body, so no proof can know a value of it (notes/assumptions/1.md). -/
opaque resetTag (draw : Nat) (set : SetIndex) : Tag

/-- FREE VALUE. What the `draw`-th RESET leaves in `D[set][k]`: "unspecified; a model draws any 8-bit value" (R21, R86,
U1; notes/assumptions/1.md). -/
opaque resetByte (draw : Nat) (set : SetIndex) (k : Offset) : Byte

end Config

end Sys2Proof
end

