-- ==== Sys2Proof/Syntax.lean ====
section
/-! DEFINITION. The operations of the block, one constructor per row of spec/opcode_table.json (00_scope.md R2), and the
front-end commands that stand for them in test programs (30_encoding.md R48). -/

namespace Sys2Proof

/-- The three operations (R2), each with the operands R39 says it uses. RESET is no operation of the table but an event
(R86): it is an `Input` of the machine, not an `Instr`. -/
inductive Instr where
  /-- READ(addr), op 00 (41_read.md R57). -/
  | read (addr : Addr)
  /-- WRITE(addr, wdata), op 01 (42_write.md R60). All 32 bits of `addr` are its operand; the meaning ignores bits [1:0]. -/
  | write (addr : Addr) (wdata : Word)
  /-- DUMP(), op 10 (43_dump.md R64). -/
  | dump
  deriving DecidableEq, Repr

/-- A hexadecimal operand of a command: its digits, the most significant first (R48; notes/assumptions/14.md). -/
abbrev HexOperand := List (BitVec 4)

/-- A command of the source's front-end (R48). Reading its text is outside the block (R4); the operands here are digits. -/
inductive Command where
  /-- `r <addr>`: READ. -/
  | r (addr : HexOperand)
  /-- `w <addr> <value>`: WRITE. -/
  | w (addr value : HexOperand)
  /-- `p`: DUMP. -/
  | p
  /-- `q`: ends the command stream and issues no request (R49). -/
  | q
  deriving DecidableEq, Repr

end Sys2Proof
end

