-- ==== Sys2Proof/WellFormed.lean ====
section
/-! DEFINITION. The checks on what is put in from outside: a configuration (00_scope.md R6, R7), a request word
(30_encoding.md R42) and a command's operands (R48). A term of `Instr` needs no check of its own: its operand types hold
exactly the values the encoding admits, so every `Instr` is well formed. -/

namespace Sys2Proof

/-- A configuration this hardware accepts: the one whose nine parameters are R6's. "These parameters are constants of the
hardware. They are not inputs"; in particular every NUM_LINES other than 16 is refused (R7, U5). -/
def Geometry.wellFormed (g : Geometry) : Bool :=
  g == Config.geometry

/-- "A requester must not issue `op = 11`" (R42); every other request word is one of the three operations. -/
def requestWellFormed (w : RequestWord) : Bool :=
  w.extractLsb' 64 2 != 0b11#2

/-- "An operand is written as 1 to 8 hex digits" (R48, D22). -/
def hexWellFormed (digits : HexOperand) : Bool :=
  1 ≤ digits.length && digits.length ≤ 8

/-- A command whose operands can be transcribed; another one is refused at the transcriber and never reaches the block
(U12). -/
def Command.wellFormed : Command → Bool
  | .r addr => hexWellFormed addr
  | .w addr value => hexWellFormed addr && hexWellFormed value
  | .p => true
  | .q => true

end Sys2Proof
end

