-- ==== Sys2Proof/Decode.lean ====
section
/-! DEFINITION. Request words to operations and back (30_encoding.md), the operation map, and the transcription of
commands into request words (R48, R49). Decoding is total; the one reserved encoding is rejected by name. -/

namespace Sys2Proof

/-! The fields of a request word (R37). -/

/-- Bits [65:64], `op`. -/
def opField (w : RequestWord) : BitVec 2 := w.extractLsb' 64 2

/-- Bits [63:32], `addr`. -/
def addrField (w : RequestWord) : Addr := w.extractLsb' 32 32

/-- Bits [31:0], `wdata`. -/
def wdataField (w : RequestWord) : Word := w.extractLsb' 0 32

/-- A request word from its three fields, `op` in the high bits (R37). -/
def packRequest (op : BitVec 2) (addr : Addr) (wdata : Word) : RequestWord :=
  op ++ addr ++ wdata

/-- Why a request word is no operation. -/
inductive DecodeError where
  /-- `op = 11` "is reserved and has no meaning" (R42). -/
  | reservedOp
  deriving DecidableEq, Repr

/-- "A request is decoded from `op` alone" (30_encoding.md section 6, R38); the operand fields are then taken as R39 says,
the ignored ones dropped. -/
def decode (w : RequestWord) : Except DecodeError Instr :=
  if opField w = 0b00#2 then .ok (.read (addrField w))
  else if opField w = 0b01#2 then .ok (.write (addrField w) (wdataField w))
  else if opField w = 0b10#2 then .ok .dump
  else .error .reservedOp

/-- The request word of an operation. Ignored fields are written as 0, as 95_test_vectors.md writes them. -/
def encode : Instr → RequestWord
  | .read addr => packRequest 0b00#2 addr 0#32
  | .write addr wdata => packRequest 0b01#2 addr wdata
  | .dump => packRequest 0b10#2 0#32 0#32

/-! The operation map (spec/opcode_table.json). -/

/-- One row of the opcode table: a word `w` is of the row when `w &&& mask = pattern`. -/
structure OpcodeRow where
  mnemonic : String
  mask : RequestWord
  pattern : RequestWord
  deriving DecidableEq, Repr

/-- The table's three rows; `op = 11`, RESET and `q` have none (30_encoding.md section 6). -/
def opcodeTable : List OpcodeRow :=
  [ { mnemonic := "READ", mask := 0x30000000000000000#66, pattern := 0x00000000000000000#66 },
    { mnemonic := "WRITE", mask := 0x30000000000000000#66, pattern := 0x10000000000000000#66 },
    { mnemonic := "DUMP", mask := 0x30000000000000000#66, pattern := 0x20000000000000000#66 } ]

/-- A word meets a row's match under its mask. -/
def OpcodeRow.covers (row : OpcodeRow) (w : RequestWord) : Bool :=
  w &&& row.mask == row.pattern

/-- The row's name for an operation. -/
def Instr.mnemonic : Instr → String
  | .read _ => "READ"
  | .write _ _ => "WRITE"
  | .dump => "DUMP"

/-! The host's numbering of a table word. -/

/-- The request word whose bits are the low `nbits` bits of `w`. The port has 66 wires (R37), so bits above bit 65, which
only round the table's width up to whole bytes, are not part of it (notes/assumptions/6.md). -/
def tableWord (nbits w : Nat) : RequestWord :=
  BitVec.ofNat 66 (w % 2 ^ nbits)

/-- The operation the decoder reads from a table word. -/
def decodeTableWord (nbits w : Nat) : Option Instr :=
  match decode (tableWord nbits w) with
  | .ok i => some i
  | .error _ => none

/-! Commands (R48, R49). -/

/-- The 32-bit value of an operand's digits. -/
def hexValue (digits : HexOperand) : BitVec 32 :=
  digits.foldl (fun v d => v <<< 4 ||| d.setWidth 32) 0#32

/-- The operation a command asks for: "each command maps to at most one request" (R49). -/
def Command.instr : Command → Option Instr
  | .r addr => some (.read (hexValue addr))
  | .w addr value => some (.write (hexValue addr) (hexValue value))
  | .p => some .dump
  | .q => none

/-- The request words of a command stream, in order, up to the first `q`. A malformed operand before it is refused here,
"at the transcriber of command text" (U12): then there is no stream. -/
def transcribe : List Command → Option (List RequestWord)
  | [] => some []
  | c :: cs =>
    if c.wellFormed then
      match c.instr with
      | none => some []
      | some i => (transcribe cs).map (encode i :: ·)
    else none

end Sys2Proof
end

