-- ==== Sys2Proof/Machine/Response.lean ====
section
/-! DEFINITION. The responses of the three operations (30_encoding.md R44 to R47): the fields as records in which an
absent field is `none`, and their layouts as bits, in which an absent field shows whatever the hardware drives there. -/

namespace Sys2Proof.Machine

/-- The three classes of Lookup (40_decode_compare.md R54), which are READ's `kind` (R45). -/
inductive ReadKind where
  | hit
  | missCold
  | missConflict
  deriving DecidableEq, Repr

/-- WRITE's `kind` (R46). -/
inductive WriteKind where
  | fill
  | update
  | evict
  deriving DecidableEq, Repr

/-- One line as a response shows it: set index, tag, valid and data (R46, R47, glossary "LineView"). -/
structure LineView where
  set : SetIndex
  tag : Tag
  valid : Bool
  data : Block
  deriving DecidableEq, Repr

/-- The READ response (R44). -/
structure ReadResponse where
  kind : ReadKind
  set : SetIndex
  tag : Tag
  offset : Offset
  storedValid : Bool
  storedTag : Option Tag
  storedByte : Option Byte
  byte : Option Byte
  deriving DecidableEq, Repr

/-- The WRITE response (R46): `ev_set` to `ev_data` are `snapshot`, and `new_set` to `new_data` are `newLine`. -/
structure WriteResponse where
  kind : WriteKind
  evicted : Bool
  snapshot : Option LineView
  newLine : LineView
  deriving DecidableEq, Repr

/-- The DUMP response (R47): a 5-bit count, and the list of that many entries. -/
structure DumpResponse where
  count : BitVec 5
  entries : List LineView
  deriving DecidableEq, Repr

/-- The response record of one operation. -/
inductive Response where
  | read (r : ReadResponse)
  | write (r : WriteResponse)
  | dump (r : DumpResponse)
  deriving DecidableEq, Repr

/-! Codes. -/

/-- READ `kind` codes (R45). -/
def ReadKind.code : ReadKind → BitVec 2
  | .hit => 0b00#2
  | .missCold => 0b01#2
  | .missConflict => 0b10#2

/-- WRITE `kind` codes (R46). -/
def WriteKind.code : WriteKind → BitVec 2
  | .fill => 0b00#2
  | .update => 0b01#2
  | .evict => 0b10#2

/-- The kind a READ response's code names; code 11 is never produced (R45). -/
def readKindOfCode (c : BitVec 2) : Option ReadKind :=
  if c = 0b00#2 then some .hit
  else if c = 0b01#2 then some .missCold
  else if c = 0b10#2 then some .missConflict
  else none

/-- The kind a WRITE response's code names; code 11 is never produced (R46). -/
def writeKindOfCode (c : BitVec 2) : Option WriteKind :=
  if c = 0b00#2 then some .fill
  else if c = 0b01#2 then some .update
  else if c = 0b10#2 then some .evict
  else none

/-! Layouts. `undriven` is what the hardware drives on the bits of absent fields: "an absent field drives an unspecified
value" (R44), so it is an argument (notes/assumptions/8.md). -/

/-- Byte `k` of a block at bits [8k+7:8k] (R46, R47). -/
def packBlock (d : Block) : BitVec 32 :=
  d[3] ++ d[2] ++ d[1] ++ d[0]

/-- The block whose byte `k` is bits [8k+7:8k] of `v`. -/
def unpackBlock (v : BitVec 32) : Block :=
  #v[v.extractLsb' 0 8, v.extractLsb' 8 8, v.extractLsb' 16 8, v.extractLsb' 24 8]

/-- A 63-bit entry: set [62:59], tag [58:33], valid [32], data [31:0] (R47; the same in R46's two halves). -/
def LineView.pack (v : LineView) : BitVec 63 :=
  v.set ++ v.tag ++ BitVec.ofBool v.valid ++ packBlock v.data

/-- The entry those bits show. -/
def unpackLineView (b : BitVec 63) : LineView where
  set := b.extractLsb' 59 4
  tag := b.extractLsb' 33 26
  valid := b.getLsbD 32
  data := unpackBlock (b.extractLsb' 0 32)

/-- The 77-bit READ response (R44). -/
def ReadResponse.pack (r : ReadResponse) (undriven : BitVec 77) : BitVec 77 :=
  r.kind.code ++ r.set ++ r.tag ++ r.offset ++ BitVec.ofBool r.storedValid
    ++ r.storedTag.getD (undriven.extractLsb' 16 26)
    ++ r.storedByte.getD (undriven.extractLsb' 8 8)
    ++ r.byte.getD (undriven.extractLsb' 0 8)

/-- The fields a requester may take from 77 response bits, each under R44's condition for its presence. -/
def unpackReadResponse (b : BitVec 77) : Option ReadResponse :=
  (readKindOfCode (b.extractLsb' 75 2)).map fun kind =>
    { kind
      set := b.extractLsb' 71 4
      tag := b.extractLsb' 45 26
      offset := b.extractLsb' 43 2
      storedValid := b.getLsbD 42
      storedTag := if b.getLsbD 42 then some (b.extractLsb' 16 26) else none
      storedByte := if b.getLsbD 42 then some (b.extractLsb' 8 8) else none
      byte := if kind = .hit then some (b.extractLsb' 0 8) else none }

/-- The 129-bit WRITE response (R46). -/
def WriteResponse.pack (r : WriteResponse) (undriven : BitVec 129) : BitVec 129 :=
  r.kind.code ++ BitVec.ofBool r.evicted
    ++ (r.snapshot.map LineView.pack).getD (undriven.extractLsb' 63 63)
    ++ r.newLine.pack

/-- The fields a requester may take from 129 response bits: the snapshot only when `evicted = 1` (R46). -/
def unpackWriteResponse (b : BitVec 129) : Option WriteResponse :=
  (writeKindOfCode (b.extractLsb' 127 2)).map fun kind =>
    { kind
      evicted := b.getLsbD 126
      snapshot := if b.getLsbD 126 then some (unpackLineView (b.extractLsb' 63 63)) else none
      newLine := unpackLineView (b.extractLsb' 0 63) }

/-- Entry slot `k` of the 16 a hardware DUMP response presents; "the slots from `count` up carry unspecified values"
(R47, U7). -/
def DumpResponse.slot (r : DumpResponse) (undriven : BitVec 63) (k : Fin 16) : BitVec 63 :=
  (r.entries[k.val]?.map LineView.pack).getD undriven

end Sys2Proof.Machine
end

