-- ==== Sys2Proof/Machine/Line.lean ====
section
/-! DEFINITION. One line of the array (10_state.md R9 to R12), the array, and what a RESET leaves in it (R21, R86). -/

namespace Sys2Proof.Machine

/-- Line `s`: the valid bit `V[s]`, the tag `T[s]` and the data `D[s]` (R9). `tag` and `data` are meaningful only when
`valid` is true (R13). -/
structure Line where
  valid : Bool
  tag : Tag
  data : Block
  deriving DecidableEq, Repr

/-- The line array: NUM_LINES = 16 lines, "indexed 0..numLines-1 by set number" (R9). -/
abbrev LineArray := Vector Line 16

/-- Line `set`: `V[set]`, `T[set]` and `D[set]` (R9). The index is always in range (R51). -/
def lineAt (a : LineArray) (set : SetIndex) : Line :=
  a[set.toNat]'set.isLt

/-- Write line `set` whole: "No operation writes fewer than four bytes" (R12); the other lines stay (R14). -/
def putLine (a : LineArray) (set : SetIndex) (l : Line) : LineArray :=
  a.set set.toNat l set.isLt

/-- Byte `D[set][k]` of a line (R12). -/
def Line.byte (l : Line) (k : Offset) : Byte :=
  l.data[k.toNat]'k.isLt

/-- The set indexes 0 to 15 in ascending order, as DUMP's loop visits them (R64). -/
def setsAscending : List SetIndex :=
  (List.range 16).map (BitVec.ofNat 4)

/-- Line `set` after the `draw`-th RESET: `V = 0`, and `T` and `D` drawn (R21, R86; notes/assumptions/1.md). -/
def resetLine (draw : Nat) (set : SetIndex) : Line where
  valid := false
  tag := Config.resetTag draw set
  data := Vector.ofFn fun k : Fin 4 => Config.resetByte draw set (BitVec.ofNat 2 k.val)

/-- The array after the `draw`-th RESET (R86). -/
def resetLines (draw : Nat) : LineArray :=
  Vector.ofFn fun i : Fin 16 => resetLine draw (BitVec.ofNat 4 i.val)

end Sys2Proof.Machine
end

