-- ==== Sys2Proof/Machine/State.lean ====
section
/-! DEFINITION. The state of the machine, the ways a step can stop, and the state after RESET. The line array is all the
block holds (10_state.md R9); a response is returned with the step and stands in no field (R20, `stepResponse`). The two
other fields are the model's own and lie outside the block (notes/assumptions/2.md, 4.md). -/

namespace Sys2Proof.Machine

/-- What the outside presents to the block, between whole operations (20_memory.md R33, 70_reset_and_hazards.md R92). -/
inductive Input where
  /-- A request word on the request port (30_encoding.md R37). -/
  | request (w : RequestWord)
  /-- The RESET event (R86). -/
  | reset
  deriving DecidableEq, Repr

/-- The machine's state. -/
structure State where
  /-- THE SPEC'S. The line array: `V`, `T` and `D` of the 16 lines (R9 to R12). -/
  lines : LineArray
  /-- THE MODEL'S OWN. What the requester presents from here on, the next first (R16, R33; notes/assumptions/2.md). -/
  inputs : List Input
  /-- THE MODEL'S OWN. How many RESETs have drawn their unspecified contents (R21; notes/assumptions/4.md). -/
  draws : Nat
  deriving DecidableEq, Repr

/-- Exceptions that stop the machine: there are none. "The block raises no exceptions" (60_exceptions.md R74), so this
type has no constructor and no step can answer a fault. -/
inductive Fault where
  deriving DecidableEq, Repr

/-- Why a step is given no meaning. -/
inductive Refusal where
  /-- Raised by `exec` for an operation that has no meaning yet; no operation of this model is in that case. Safe: nothing
  is claimed of the operation. -/
  | notModelled (mnemonic : String)
  /-- Raised by `step` for a request with the reserved `op = 11`: "A model must refuse such a request: it gives it no step,
  changes no state and produces no response, and it marks the run as refused" (30_encoding.md R42). Safe (D8;
  notes/assumptions/7.md). -/
  | reservedOp
  deriving DecidableEq, Repr

/-- The state right after RESET (R21, R86): every valid bit 0, tags and data as draw number 0, and nothing presented yet
(notes/assumptions/1.md, 2.md, 4.md). Before the first RESET there is no state (R88). -/
def State.reset : State where
  lines := resetLines 0
  inputs := []
  draws := 1

end Sys2Proof.Machine
end

