-- ==== Sys2Proof/Machine/Ops.lean ====
section
/-! DEFINITION. The named operations over the state: showing a line, replacing the line array, taking the next input,
idling and RESET. The block takes no exception (60_exceptions.md R74, R78), so there is no exception entry and no return. -/

namespace Sys2Proof.Machine

/-- Line `set` as a response shows it (R46, R47). -/
def viewAt (a : LineArray) (set : SetIndex) : LineView where
  set := set
  tag := (lineAt a set).tag
  valid := (lineAt a set).valid
  data := (lineAt a set).data

/-- Line `set` of the machine's array. -/
def State.line (s : State) (set : SetIndex) : Line :=
  lineAt s.lines set

/-- Line `set` of the machine's array as a response shows it. -/
def State.view (s : State) (set : SetIndex) : LineView :=
  viewAt s.lines set

/-- The machine with another line array; what the requester has still to present, and the draws, stay. -/
def State.withLines (s : State) (a : LineArray) : State :=
  { s with lines := a }

/-- The next input, if the requester presents one, and the state with it taken off the port. -/
def State.takeInput (s : State) : Option (Input × State) :=
  match s.inputs with
  | [] => none
  | i :: rest => some (i, { s with inputs := rest })

/-- Put an input before all that is still to come. -/
def State.present (s : State) (i : Input) : State :=
  { s with inputs := i :: s.inputs }

/-- No request is presented: "the block's state does not change" (60_exceptions.md R85). -/
def idle (s : State) : State := s

/-- RESET: every valid bit cleared, tags and data drawn (70_reset_and_hazards.md R86). It cannot fail (R75). -/
def applyReset (s : State) : State :=
  { s with lines := resetLines s.draws, draws := s.draws + 1 }

end Sys2Proof.Machine
end

