-- ==== Sys2Proof/Machine/Dump.lean ====
section
/-! DEFINITION. DUMP (43_dump.md R64 to R66). -/

namespace Sys2Proof.Machine

/-- The valid lines in ascending set order; "Invalid lines are omitted entirely" (R64). -/
def validViews (a : LineArray) : List LineView :=
  setsAscending.filterMap fun set => if (lineAt a set).valid then some (viewAt a set) else none

/-- DUMP() as an operation of the block: the whole list in one response, and no state written (R64, R65, D18). -/
def dumpOp (a : LineArray) : LineArray × Response :=
  let entries := validViews a
  (a, .dump { count := BitVec.ofNat 5 entries.length, entries := entries })

/-- DUMP() of the machine, one atomic step (R64); what it returns is `respond` (R20). -/
def execDump (s : State) : Host.Outcome State Fault Refusal :=
  .next (s.withLines (dumpOp s.lines).1)

end Sys2Proof.Machine
end

