-- ==== Sys2Proof/Machine/Operands.lean ====
section
/-! DEFINITION. The operand forms: the address decoder (40_decode_compare.md R50 to R52) and the byte lanes of the write
data word (20_memory.md R25). -/

namespace Sys2Proof.Machine

/-- What the decoder returns: `(offset, set, tag)` (R50). -/
structure AddrFields where
  offset : Offset
  set : SetIndex
  tag : Tag
  deriving DecidableEq, Repr

/-- `Decode(a)`: offset a[1:0], set a[5:2], tag a[31:6] (R40, R50). Total and pure (R51). -/
def decodeAddress (a : Addr) : AddrFields where
  offset := a.extractLsb' 0 2
  set := a.extractLsb' 2 4
  tag := a.extractLsb' 6 26

/-- The lanes of `wdata`: element `k` is `wdata[8k+7 : 8k]` (R25, D4; notes/assumptions/5.md). -/
def lanes (wdata : Word) : Block :=
  #v[wdata.extractLsb' 0 8, wdata.extractLsb' 8 8, wdata.extractLsb' 16 8, wdata.extractLsb' 24 8]

end Sys2Proof.Machine
end

