-- ==== Sys2Proof/Machine/Flags.lean ====
section
/-! DEFINITION. The outcome of an operation. The block has no status flags (10_state.md R17): hit, miss, fill, update and
eviction are fields of a response, computed here by the tag comparator and the lookup (40_decode_compare.md R53 to R55). -/

namespace Sys2Proof.Machine

/-- `Match(s, t)` on line s: unsigned equality of all 26 bits; the valid bit is not looked at (R53). -/
def tagMatch (l : Line) (tag : Tag) : Bool :=
  l.tag == tag

/-- `Lookup(s, t)` on line s: the valid bit is tested first, so a stale tag of an invalid line never matters (R54, R55). -/
def lookup (l : Line) (tag : Tag) : ReadKind :=
  if l.valid = false then .missCold
  else if tagMatch l tag = false then .missConflict
  else .hit

/-- WRITE's names for the three classes: "MISS_COLD is a cold fill, MISS_CONFLICT is an eviction and HIT is an update"
(R54, R60). -/
def writeKindOf : ReadKind → WriteKind
  | .missCold => .fill
  | .hit => .update
  | .missConflict => .evict

end Sys2Proof.Machine
end

