-- ==== Sys2Proof/Machine/Read.lean ====
section
/-! DEFINITION. READ (41_read.md R57 to R59). -/

namespace Sys2Proof.Machine

/-- READ's response for the searched fields, from the line of their set (R57). The stored tag and byte are present only
for a valid line, the returned byte only on a hit (R58). -/
def readResponse (l : Line) (f : AddrFields) : ReadResponse where
  kind := lookup l f.tag
  set := f.set
  tag := f.tag
  offset := f.offset
  storedValid := l.valid
  storedTag := if l.valid then some l.tag else none
  storedByte := if l.valid then some (l.byte f.offset) else none
  byte := if lookup l f.tag = .hit then some (l.byte f.offset) else none

/-- READ(addr) as an operation of the block: looks up one byte, writes no state, and returns its response (R57, R59). -/
def readOp (addr : Addr) (a : LineArray) : LineArray × Response :=
  let f := decodeAddress addr
  (a, .read (readResponse (lineAt a f.set) f))

/-- READ(addr) of the machine (R57); what it returns is `respond` (R20). -/
def execRead (addr : Addr) (s : State) : Host.Outcome State Fault Refusal :=
  .next (s.withLines (readOp addr s.lines).1)

end Sys2Proof.Machine
end

