-- ==== Sys2Proof/Machine/Write.lean ====
section
/-! DEFINITION. WRITE (42_write.md R60 to R63). -/

namespace Sys2Proof.Machine

/-- The line WRITE puts in the decoded set: valid, with the decoded tag and the bytes of wdata (R60, R63). -/
def writtenLine (tag : Tag) (wdata : Word) : Line where
  valid := true
  tag := tag
  data := lanes wdata

/-- WRITE's response, from the line of the decoded set as it was (R60): a snapshot of it on EVICT (R61) and none on FILL
and UPDATE (R62), and the new line. -/
def writeResponse (old : Line) (set : SetIndex) (tag : Tag) (wdata : Word) : WriteResponse where
  kind := writeKindOf (lookup old tag)
  evicted := writeKindOf (lookup old tag) == .evict
  snapshot :=
    if writeKindOf (lookup old tag) = .evict then
      some { set := set, tag := old.tag, valid := old.valid, data := old.data }
    else none
  newLine := { set := set, tag := tag, valid := true, data := lanes wdata }

/-- WRITE(addr, wdata) as an operation of the block: it fills, updates or evicts and fills the line of the decoded set,
whole, and returns what it did; the snapshot is built from the values before the step (R31, R60, R61). The offset is not
used (R27). -/
def writeOp (addr : Addr) (wdata : Word) (a : LineArray) : LineArray × Response :=
  let f := decodeAddress addr
  (putLine a f.set (writtenLine f.tag wdata), .write (writeResponse (lineAt a f.set) f.set f.tag wdata))

/-- WRITE(addr, wdata) of the machine, one atomic step (R31, R60); what it returns is `respond` (R20). -/
def execWrite (addr : Addr) (wdata : Word) (s : State) : Host.Outcome State Fault Refusal :=
  .next (s.withLines (writeOp addr wdata s.lines).1)

end Sys2Proof.Machine
end

