-- ==== Sys2Proof/Machine/Dispatch.lean ====
section
/-! DEFINITION. One arm per operation of spec/opcode_table.json. -/

namespace Sys2Proof.Machine

def exec (i : Instr) (s : State) : Host.Outcome State Fault Refusal :=
  match i with
  | .read addr => Sys2Proof.Machine.execRead addr s
  | .write addr wdata => Sys2Proof.Machine.execWrite addr wdata s
  | .dump => Sys2Proof.Machine.execDump s

end Sys2Proof.Machine
end

