-- ==== Sys2Proof/Machine/Perform.lean ====
section
/-! DEFINITION. The block by itself: what it holds, and what it returns with each step. "A response is an output of the
operation that produced it, not state"; "The model returns it with the step and does not store it" (10_state.md R20, D23;
notes/assumptions/3.md). -/

namespace Sys2Proof.Machine

/-- One operation of the block, from the line array it finds to the line array it leaves and the response it returns. The
array is all that persists (R9); no response is handed on to the next operation (R20). `exec` has the same next state. -/
def perform (i : Instr) (a : LineArray) : LineArray × Response :=
  match i with
  | .read addr => readOp addr a
  | .write addr wdata => writeOp addr wdata a
  | .dump => dumpOp a

/-- `respond(r)` of the spec's pseudocode (00_scope.md section 6): the response the operation returns from this state. -/
def respond (i : Instr) (s : State) : Response :=
  (perform i s.lines).2

/-- What the block returns for an input: one response for an operation, none for a RESET ("RESET produces no response",
70_reset_and_hazards.md R86) and none for a reserved request (30_encoding.md R42). -/
def inputResponse (input : Input) (s : State) : Option Response :=
  match input with
  | .reset => none
  | .request w =>
    match decode w with
    | .ok i => some (respond i s)
    | .error .reservedOp => none

/-- The response the step from this state returns, if it returns one. It is computed, not stored: it is a function of the
line array before the step and of what is presented (R20). -/
def stepResponse (s : State) : Option Response :=
  match s.takeInput with
  | none => none
  | some (input, s') => inputResponse input s'

end Sys2Proof.Machine
end

