-- ==== Sys2Proof/Machine/Step.lean ====
section
/-! DEFINITION. One step: the block takes the next thing the requester presents and completes it before the next is issued
(20_memory.md R33, 70_reset_and_hazards.md R89). There is no program counter (10_state.md R16). The host's `step` answers
the next state; `stepResponse` is what the same step returns to the requester (R20), and `stepReturning` is both. -/

namespace Sys2Proof.Machine

/-- One step: idle when nothing is presented (R85), RESET (R86), or the request's operation; a request that decodes to
none is refused (R42). -/
def step (s : State) : Host.Outcome State Fault Refusal :=
  match s.takeInput with
  | none => .next (idle s)
  | some (.reset, s') => .next (applyReset s')
  | some (.request w, s') =>
    match decode w with
    | .ok i => exec i s'
    | .error .reservedOp => .refused .reservedOp

/-- The step with what it returns: "The model returns it with the step and does not store it" (R20). -/
def stepReturning (s : State) : Host.Outcome (State × Option Response) Fault Refusal :=
  match step s with
  | .next t => .next (t, stepResponse s)
  | .fault why => .fault why
  | .refused why => .refused why

/-- `s` with the table word `w` presented on the request port as the very next request (notes/assumptions/2.md). -/
def State.withFetchWord (s : State) (nbits w : Nat) : State :=
  s.present (.request (tableWord nbits w))

end Sys2Proof.Machine
end

