-- ==== Sys2Proof/Machine/LineState.lean ====
section
/-! DEFINITION. The line-state machine (44_line_state_machine.md R67 to R73), written as the spec's own transition table,
apart from the meanings. That WRITE, READ, DUMP and RESET move every line as this table says is a statement for the
provers. -/

namespace Sys2Proof.Machine

/-- "States are `Invalid` and `Valid(tag)`" (R67). -/
inductive LineState where
  | invalid
  | valid (t : Tag)
  deriving DecidableEq, Repr

/-- What can happen at one line (R69, R70, R71). -/
inductive LineEvent where
  /-- A WRITE that decodes to this line, with the decoded tag. -/
  | write (t : Tag)
  | read
  | dump
  | reset
  deriving DecidableEq, Repr

/-- The state a line is in: `Invalid` exactly when `V = 0`, `Valid(t)` exactly when `V = 1` and `T = t` (R67). -/
def Line.state (l : Line) : LineState :=
  if l.valid then .valid l.tag else .invalid

/-- The next state: R69's table for a write, no transition for READ and DUMP (R70), `Invalid` on RESET (R68, R71). -/
def LineState.next : LineState → LineEvent → LineState
  | .invalid, .write t' => .valid t'
  | .valid t, .write t' => if t = t' then .valid t else .valid t'
  | st, .read => st
  | st, .dump => st
  | _, .reset => .invalid

/-- The WRITE kind of R69's table. -/
def LineState.writeKind : LineState → Tag → WriteKind
  | .invalid, _ => .fill
  | .valid t, t' => if t = t' then .update else .evict

/-- "An eviction happens exactly on the transition `Valid(t) -> Valid(t')` with t' != t" (R72). -/
def LineState.evicts : LineState → LineEvent → Bool
  | .valid t, .write t' => t != t'
  | .valid _, .read => false
  | .valid _, .dump => false
  | .valid _, .reset => false
  | .invalid, _ => false

end Sys2Proof.Machine
end

