-- ==== Sys2Proof/Safety.lean ====
section
/-! DEFINITION. The words the claims use: what a requester may present, what a coherent response is, which parts of two
states a requester can tell apart, what a sequence of operations has written, and which line events an input causes. -/

namespace Sys2Proof.Machine

/-! Safe runs. -/

/-- The requester presents no reserved request: "A requester must not issue `op = 11`" (30_encoding.md R42). -/
def OnlyOperations (s : State) : Prop :=
  ∀ w, Input.request w ∈ s.inputs → requestWellFormed w = true

/-- Every line is in state `Invalid`, as after RESET (44_line_state_machine.md R68). -/
def AllInvalid (s : State) : Prop :=
  ∀ set, (s.line set).valid = false

/-- The inputs that present these operations, in order. -/
def requests (is : List Instr) : List Input :=
  is.map fun i => Input.request (encode i)

/-- The operations one after the other, each on the state the one before left (20_memory.md R33). -/
def execAll : List Instr → State → Host.Outcome State Fault Refusal
  | [], s => .next s
  | i :: is, s =>
    match exec i s with
    | .next t => execAll is t
    | .fault r => .fault r
    | .refused r => .refused r

/-- `n` steps of the machine as the host runs it, stopping at the first fault or refusal. -/
def runSteps (n : Nat) (s : State) : Host.Outcome State Fault Refusal :=
  Sys2Proof.core.run n s

/-- The responses that `n` steps return, in order, up to the first fault or refusal (10_state.md R20). -/
def responses : Nat → State → List Response
  | 0, _ => []
  | n + 1, s =>
    match stepReturning s with
    | .next (t, returned) => returned.toList ++ responses n t
    | .fault _ => []
    | .refused _ => []

/-- An operation that writes: only WRITE (60_exceptions.md R85). -/
def isWrite : Instr → Bool
  | .read _ => false
  | .write _ _ => true
  | .dump => false

/-! Coherent responses: each field that shows a line shows it as it now is, and the optional fields are present exactly
under the conditions of 30_encoding.md R44 to R47. -/

/-- A READ response agrees with the line it searched (R44, 41_read.md R58). -/
def ReadResponse.Coherent (s : State) (r : ReadResponse) : Prop :=
  r.storedValid = (s.line r.set).valid
    ∧ r.storedTag = (if (s.line r.set).valid then some (s.line r.set).tag else none)
    ∧ r.storedByte = (if (s.line r.set).valid then some ((s.line r.set).byte r.offset) else none)
    ∧ (r.kind = .missCold ↔ (s.line r.set).valid = false)
    ∧ (r.kind = .hit ↔ (s.line r.set).valid = true ∧ (s.line r.set).tag = r.tag)
    ∧ r.byte = (if r.kind = .hit then some ((s.line r.set).byte r.offset) else none)

/-- A WRITE response shows the line as written, and a snapshot of a valid line of the same set and another tag exactly
when it evicts (R46, 42_write.md R61, R62). -/
def WriteResponse.Coherent (s : State) (r : WriteResponse) : Prop :=
  r.newLine.valid = true
    ∧ r.newLine = s.view r.newLine.set
    ∧ (r.evicted = true ↔ r.kind = .evict)
    ∧ r.snapshot.isSome = r.evicted
    ∧ ∀ v, r.snapshot = some v → v.set = r.newLine.set ∧ v.valid = true ∧ v.tag ≠ r.newLine.tag

/-- A DUMP response lists exactly the valid lines, in strictly ascending set order, and counts them (R47, 43_dump.md
R64). -/
def DumpResponse.Coherent (s : State) (r : DumpResponse) : Prop :=
  r.count.toNat = r.entries.length
    ∧ r.entries.Pairwise (fun v v' => v.set < v'.set)
    ∧ ∀ v, v ∈ r.entries ↔ v.valid = true ∧ v = s.view v.set

/-- A response agrees with the line array of the state its operation left. -/
def Response.Coherent (s : State) : Response → Prop
  | .read r => r.Coherent s
  | .write r => r.Coherent s
  | .dump r => r.Coherent s

/-! What a requester can tell apart. -/

/-- The two states differ at most in the contents of invalid lines (10_state.md R13) and in the number of draws. -/
def SameDefined (s s' : State) : Prop :=
  s.inputs = s'.inputs
    ∧ ∀ set, (s.line set).valid = (s'.line set).valid ∧ ((s.line set).valid = true → s.line set = s'.line set)

/-- The two outcomes are of the same kind and a requester cannot tell them apart. -/
def OutcomesAgree : Host.Outcome State Fault Refusal → Host.Outcome State Fault Refusal → Prop
  | .next t, .next t' => SameDefined t t'
  | .fault r, .fault r' => r = r'
  | .refused r, .refused r' => r = r'
  | .next _, .fault _ => False
  | .next _, .refused _ => False
  | .fault _, .next _ => False
  | .fault _, .refused _ => False
  | .refused _, .next _ => False
  | .refused _, .fault _ => False

/-! The address space as the array holds it. -/

/-- The byte at an offset of the block with a tag, if a line holds that block. -/
def Line.heldByte (l : Line) (tag : Tag) (offset : Offset) : Option Byte :=
  if l.valid = true ∧ l.tag = tag then some (l.byte offset) else none

/-- The byte of address `b`, if its block is in the array (20_memory.md R24). -/
def State.cachedByte (s : State) (b : Addr) : Option Byte :=
  (s.line (b.extractLsb' 2 4)).heldByte (b.extractLsb' 6 26) (b.extractLsb' 0 2)

/-! What has been written. -/

/-- The tag and word an operation writes to line `set`, if it writes it. -/
def writeTo (set : SetIndex) : Instr → Option (Tag × Word)
  | .read _ => none
  | .write addr wdata => if addr.extractLsb' 2 4 = set then some (addr.extractLsb' 6 26, wdata) else none
  | .dump => none

/-- The most recent write to line `set` in a sequence of operations. -/
def lastWrite (set : SetIndex) : List Instr → Option (Tag × Word)
  | [] => none
  | i :: is => (lastWrite set is).or (writeTo set i)

/-- What DUMP lists after those writes: "exactly the sets that have been written", each once, in ascending order, "with the
tag and data of its most recent WRITE" (43_dump.md R66). -/
def historyViews (is : List Instr) : List LineView :=
  setsAscending.filterMap fun set =>
    (lastWrite set is).map fun x => { set := set, tag := x.1, valid := true, data := lanes x.2 }

/-! Line events (44_line_state_machine.md). -/

/-- What an input does at line `set`, if anything. -/
def lineEvent (set : SetIndex) : Input → Option LineEvent
  | .reset => some .reset
  | .request w =>
    match decode w with
    | .ok (.read _) => some .read
    | .ok (.write addr _) => if addr.extractLsb' 2 4 = set then some (.write (addr.extractLsb' 6 26)) else none
    | .ok .dump => some .dump
    | .error .reservedOp => none

/-- What the next step does at line `set`; nothing when no input is presented (60_exceptions.md R85). -/
def nextLineEvent (s : State) (set : SetIndex) : Option LineEvent :=
  s.inputs.head?.bind (lineEvent set)

/-- The line state after an event, or after none. -/
def LineState.after (st : LineState) : Option LineEvent → LineState
  | none => st
  | some e => st.next e

end Sys2Proof.Machine
end

