-- ==== Sys2Proof/Certificates/Slice0/Obligations.lean ====
section
/-! DEFINITION. The statements for the provers, from the spec's rules. Op codes, the request layout, response layouts and
kind codes are the spec's own decisions D7 to D9, the byte order is its decision D4; a statement that rests on one says so.
What an operation answers has two parts: the next state (`exec`, `step`), and the response it returns, which is no part of
the state (`respond`, `stepResponse`; its decision D23). -/

open Sys2Proof Sys2Proof.Machine

/-! ## Encoding -/

/-- The request words of 95_test_vectors.md section 2.7 decode as its table says (layout and codes: D7, D8). -/
def Obligations.KnownRequestWordsDecode : Prop :=
  decode 0x000000043FFFFFFFF#66 = .ok (.read 0x00000043#32)
    ∧ decode 0x100000040DDCCBBAA#66 = .ok (.write 0x00000040#32 0xDDCCBBAA#32)
    ∧ decode 0x2123456789ABCDEF0#66 = .ok .dump
    ∧ decode 0x30000000000000000#66 = .error .reservedOp

/-- The op field alone selects the operation, and its operands are the fields at bits [63:32] and [31:0]; the fields an
operation ignores take no part (30_encoding.md sections 1 and 3; D7, D8). Every request word is of one of the four forms. -/
def Obligations.RequestFieldsSelectOperation : Prop :=
  (∀ (addr : Addr) (wdata : Word),
    decode (0b00#2 ++ addr ++ wdata) = .ok (.read addr)
      ∧ decode (0b01#2 ++ addr ++ wdata) = .ok (.write addr wdata)
      ∧ decode (0b10#2 ++ addr ++ wdata) = .ok .dump
      ∧ decode (0b11#2 ++ addr ++ wdata) = .error .reservedOp)
    ∧ ∀ w : RequestWord, ∃ (op : BitVec 2) (addr : Addr) (wdata : Word), w = op ++ addr ++ wdata

/-- Decoding an encoded operation gives it back, with every operand at every value (30_encoding.md section 1; D7). -/
def Obligations.DecodeEncodeRoundTrip : Prop :=
  ∀ i : Instr, decode (encode i) = .ok i

/-- A word is of a row of the opcode table exactly when it decodes to that row's operation, and of no row exactly when its
op is the reserved one (30_encoding.md section 6, opcode_table.json; D7, D8). -/
def Obligations.OpcodeTableRowsDecideOperation : Prop :=
  ∀ w : RequestWord,
    (∀ row ∈ opcodeTable, (row.covers w = true ↔ ∃ i, decode w = .ok i ∧ i.mnemonic = row.mnemonic))
      ∧ ((∀ row ∈ opcodeTable, row.covers w = false) ↔ requestWellFormed w = false)

/-- A step, with the response it returns, does not depend on the fields its request ignores: wdata for READ, addr[1:0] for
WRITE, addr and wdata for DUMP (30_encoding.md section 1, "An ignored field may hold any value"; D7). -/
def Obligations.IgnoredRequestFieldsDoNotMatter : Prop :=
  ∀ (s : State) (addr addr' : Addr) (wdata wdata' : Word),
    let returning (op : BitVec 2) (a : Addr) (v : Word) := stepReturning (s.present (.request (op ++ a ++ v)))
    returning 0b00#2 addr wdata = returning 0b00#2 addr wdata'
      ∧ (addr.extractLsb' 2 30 = addr'.extractLsb' 2 30 → returning 0b01#2 addr wdata = returning 0b01#2 addr' wdata)
      ∧ returning 0b10#2 addr wdata = returning 0b10#2 addr' wdata'

/-- Commands are transcribed in order, each into its one request, and the first `q` ends the stream with no request of its
own; the digits of an operand, the most significant first, spell every 32-bit value (30_encoding.md section 5; digits as
numbers are the model's choice, log entry 14). -/
def Obligations.CommandsBecomeRequestsInOrder : Prop :=
  (∀ cs ds : List Command, (∀ c ∈ cs, c.wellFormed = true ∧ c ≠ .q) →
    ∃ is : List Instr, is.map some = cs.map Command.instr
      ∧ transcribe cs = some (is.map encode) ∧ transcribe (cs ++ .q :: ds) = some (is.map encode))
    ∧ ∀ v : BitVec 32, ∃ digits, hexWellFormed digits = true ∧ hexValue digits = v

/-- The accepted configuration is that of the parameter table and no other: every other value of any parameter is refused,
and the accepted values stand in the three relations (00_scope.md section 4; refusing other line counts is D3). -/
def Obligations.AcceptedGeometryHasSixteenLines : Prop :=
  (∀ g : Geometry, g.wellFormed = true ↔
    g.addrWidth = 32 ∧ g.byteBits = 8 ∧ g.blockBytes = 4 ∧ g.offsetBits = 2 ∧ g.setBits = 4 ∧ g.numLines = 16
      ∧ g.tagBits = 26 ∧ g.associativity = 1 ∧ g.wdataBits = 32)
    ∧ ∀ g : Geometry, g.wellFormed = true →
      g.numLines = 2 ^ g.setBits ∧ g.blockBytes = 2 ^ g.offsetBits
        ∧ g.tagBits = g.addrWidth - g.setBits - g.offsetBits ∧ g.wdataBits = g.blockBytes * g.byteBits

/-! ## Address decoder and lookup -/

/-- The decoder's fields are the shifts and masks of 40_decode_compare.md section 1. -/
def Obligations.AddressFieldsAreShiftsAndMasks : Prop :=
  ∀ a : Addr,
    (decodeAddress a).offset.setWidth 32 = a &&& 0x3#32
      ∧ (decodeAddress a).set.setWidth 32 = (a >>> 2) &&& 0xF#32
      ∧ (decodeAddress a).tag.setWidth 32 = a >>> 6

/-- The fields are in range and rebuild the address exactly (40_decode_compare.md section 1; the tag's bound is the spec's
own inference from the width of a, marked there as derived). -/
def Obligations.AddressFieldsRebuildAddress : Prop :=
  ∀ a : Addr,
    (decodeAddress a).offset.toNat < 4 ∧ (decodeAddress a).set.toNat < 16 ∧ (decodeAddress a).tag.toNat < 2 ^ 26
      ∧ (decodeAddress a).offset.setWidth 32 ||| ((decodeAddress a).set.setWidth 32 <<< 2)
          ||| ((decodeAddress a).tag.setWidth 32 <<< 6) = a

/-- Addresses 64 bytes apart, modulo 2^32, share a line under consecutive tags, and two addresses name the same block
exactly when bits [31:2] agree (20_memory.md section 1, which the spec derives from its decoder rule). -/
def Obligations.BlocksSixtyFourBytesApartShareALine : Prop :=
  (∀ a : Addr, decodeAddress (a + 0x40#32)
      = { offset := (decodeAddress a).offset, set := (decodeAddress a).set, tag := (decodeAddress a).tag + 1#26 })
    ∧ ∀ a b : Addr, ((decodeAddress a).set = (decodeAddress b).set ∧ (decodeAddress a).tag = (decodeAddress b).tag)
        ↔ a.extractLsb' 2 30 = b.extractLsb' 2 30

/-- R53 to R55: the comparator is equality of the whole tag whatever the valid bit; an invalid line is MISS_COLD whatever
its tag; a valid one is MISS_CONFLICT or HIT by its tag; and WRITE's kinds are the same three-way split. -/
def Obligations.LookupClassifiesByValidThenTag : Prop :=
  ∀ (l : Line) (t : Tag),
    (tagMatch l t = true ↔ l.tag = t)
      ∧ (l.valid = false → lookup l t = .missCold)
      ∧ (l.valid = true → l.tag ≠ t → lookup l t = .missConflict)
      ∧ (l.valid = true → l.tag = t → lookup l t = .hit)
      ∧ writeKindOf .missCold = .fill ∧ writeKindOf .missConflict = .evict ∧ writeKindOf .hit = .update

/-! ## READ -/

/-- READ completes, leaves the state as it is and returns, for an invalid line, an occupant of another tag and a hit, the
response of 41_read.md; and it is the operation of op 00, wdata ignored (the code: D7, log entry 6; the stored fields absent
for an invalid line, the byte absent on a miss: D6, log entry 8). -/
def Obligations.ReadRespondsByLineState : Prop :=
  ∀ (s : State) (tag : Tag) (set : SetIndex) (offset : Offset),
    (∀ wdata : Word, decode (0b00#2 ++ (tag ++ set ++ offset : Addr) ++ wdata) = .ok (.read (tag ++ set ++ offset)))
      ∧ exec (.read (tag ++ set ++ offset)) s = .next s
      ∧ ((s.line set).valid = false →
          respond (.read (tag ++ set ++ offset)) s = .read
            { kind := .missCold, set, tag, offset, storedValid := false, storedTag := none, storedByte := none,
              byte := none })
      ∧ ((s.line set).valid = true → (s.line set).tag ≠ tag →
          respond (.read (tag ++ set ++ offset)) s = .read
            { kind := .missConflict, set, tag, offset, storedValid := true, storedTag := some (s.line set).tag,
              storedByte := some ((s.line set).data[offset.toNat]'offset.isLt), byte := none })
      ∧ ((s.line set).valid = true → (s.line set).tag = tag →
          respond (.read (tag ++ set ++ offset)) s = .read
            { kind := .hit, set, tag, offset, storedValid := true, storedTag := some tag,
              storedByte := some ((s.line set).data[offset.toNat]'offset.isLt),
              byte := some ((s.line set).data[offset.toNat]'offset.isLt) })

/-- FRAME: READ, hit or miss, and DUMP leave every valid bit, tag and data byte as they were, and with them every address,
the pending inputs and the draw counter (41_read.md for READ; 43_dump.md and, derived there, 44_line_state_machine.md for
DUMP). -/
def Obligations.ReadAndDumpFrame : Prop :=
  ∀ (i : Instr) (s t : State), isWrite i = false → exec i s = .next t →
    (∀ set, t.line set = s.line set) ∧ (∀ b, t.cachedByte b = s.cachedByte b)
      ∧ t.inputs = s.inputs ∧ t.draws = s.draws

/-! ## WRITE -/

/-- WRITE answers a next state in every case. The line of the decoded set becomes valid with the decoded tag and the four
bytes of wdata, and the response tells a fill, an update or an eviction with the line as it was (42_write.md); and it is the
operation of op 01 (the code: D7, log entry 6; the byte lanes: D4, log entry 5; the snapshot absent without eviction: D20,
log entry 8). -/
def Obligations.WriteRespondsByLineState : Prop :=
  ∀ (s : State) (tag : Tag) (set : SetIndex) (offset : Offset) (wdata : Word),
    let data : Block := #v[wdata.extractLsb' 0 8, wdata.extractLsb' 8 8, wdata.extractLsb' 16 8, wdata.extractLsb' 24 8]
    let old := s.line set
    decode (0b01#2 ++ (tag ++ set ++ offset : Addr) ++ wdata) = .ok (.write (tag ++ set ++ offset) wdata)
      ∧ ∃ (t : State) (r : WriteResponse), exec (.write (tag ++ set ++ offset) wdata) s = .next t
        ∧ t.line set = { valid := true, tag, data }
        ∧ respond (.write (tag ++ set ++ offset) wdata) s = .write r
        ∧ r.newLine = { set, tag, valid := true, data }
        ∧ (old.valid = false → r.kind = .fill ∧ r.evicted = false ∧ r.snapshot = none)
        ∧ (old.valid = true → old.tag = tag → r.kind = .update ∧ r.evicted = false ∧ r.snapshot = none)
        ∧ (old.valid = true → old.tag ≠ tag → r.kind = .evict ∧ r.evicted = true
            ∧ r.snapshot = some { set, tag := old.tag, valid := true, data := old.data })

/-- FRAME: WRITE always completes; it touches only the line of the decoded set (42_write.md, 44_line_state_machine.md). A
READ of any address in the written block would hit with its byte of wdata (the byte order: D4, log entry 5), any other block
of that set is no longer there, and every other address is as before. -/
def Obligations.WriteFrame : Prop :=
  ∀ (s : State) (addr : Addr) (wdata : Word), ∃ t : State,
    exec (.write addr wdata) s = .next t
      ∧ t.line (addr.extractLsb' 2 4)
          = { valid := true, tag := addr.extractLsb' 6 26,
              data := #v[wdata.extractLsb' 0 8, wdata.extractLsb' 8 8, wdata.extractLsb' 16 8, wdata.extractLsb' 24 8] }
      ∧ (∀ set, set ≠ addr.extractLsb' 2 4 → t.line set = s.line set)
      ∧ (∀ b : Addr, b.extractLsb' 2 4 ≠ addr.extractLsb' 2 4 → t.cachedByte b = s.cachedByte b)
      ∧ (∀ b : Addr, b.extractLsb' 2 4 = addr.extractLsb' 2 4 → b.extractLsb' 6 26 ≠ addr.extractLsb' 6 26 →
          t.cachedByte b = none)
      ∧ (∀ b : Addr, b.extractLsb' 2 30 = addr.extractLsb' 2 30 →
          t.cachedByte b = some (wdata.extractLsb' (8 * (b.extractLsb' 0 2).toNat) 8))
      ∧ t.inputs = s.inputs ∧ t.draws = s.draws

/-- A WRITE to a, a+1, a+2 or a+3, for a with a[1:0] = 0, has the same effect, returns the same response and fills block
a[31:2] with the four bytes of wdata, byte 0 first (20_memory.md section 3; the bytes' order: D4, log entry 5). -/
def Obligations.WriteIgnoresOffset : Prop :=
  ∀ (s : State) (a : Addr) (k : Offset) (wdata : Word), a.extractLsb' 0 2 = 0#2 →
    ∃ t : State, exec (.write a wdata) s = .next t ∧ exec (.write (a + k.setWidth 32) wdata) s = .next t
      ∧ respond (.write (a + k.setWidth 32) wdata) s = respond (.write a wdata) s
      ∧ t.cachedByte a = some (wdata.extractLsb' 0 8) ∧ t.cachedByte (a + 1#32) = some (wdata.extractLsb' 8 8)
      ∧ t.cachedByte (a + 2#32) = some (wdata.extractLsb' 16 8) ∧ t.cachedByte (a + 3#32) = some (wdata.extractLsb' 24 8)

/-- Repeating a WRITE leaves the state as the first one left it, and reports an update (20_memory.md section 3, derived
there) without eviction and with no snapshot (42_write.md, D20; absent as `none`: log entry 8). -/
def Obligations.RepeatedWriteReportsUpdate : Prop :=
  ∀ (s t : State) (addr : Addr) (wdata : Word), exec (.write addr wdata) s = .next t →
    exec (.write addr wdata) t = .next t
      ∧ ∃ r : WriteResponse, respond (.write addr wdata) t = .write r
        ∧ r.kind = .update ∧ r.evicted = false ∧ r.snapshot = none

/-- Writing to address a and then reading an address b of its block yields a hit with the byte
`(written_value >> (8*offset)) & 0xFF` (95_test_vectors.md section 1.3, P-rw; 70_reset_and_hazards.md section 3; D4). -/
def Obligations.WriteThenReadHits : Prop :=
  ∀ (s : State) (a b : Addr) (wdata : Word), a.extractLsb' 2 30 = b.extractLsb' 2 30 →
    ∃ (t : State) (r : ReadResponse), exec (.write a wdata) s = .next t ∧ exec (.read b) t = .next t
      ∧ respond (.read b) t = .read r ∧ r.kind = .hit
      ∧ r.byte = some (((wdata >>> (8 * (b.extractLsb' 0 2).toNat)) &&& 0xFF#32).setWidth 8)

/-- A second WRITE to the same set classifies against the line the first one left: same tag, an update; another tag, an
eviction that carries the first one's tag and data, after which a READ of the first address misses in conflict with no
data (95_test_vectors.md section 1.3, P-evict and P-update; 70_reset_and_hazards.md section 3; absent fields D6, log entry
8). -/
def Obligations.SecondWriteSeesFirst : Prop :=
  ∀ (s : State) (a b : Addr) (v w : Word), a.extractLsb' 2 4 = b.extractLsb' 2 4 →
    ∃ (t u : State) (r : WriteResponse), exec (.write a v) s = .next t ∧ exec (.write b w) t = .next u
      ∧ respond (.write b w) t = .write r
      ∧ (a.extractLsb' 6 26 = b.extractLsb' 6 26 → r.kind = .update ∧ r.evicted = false)
      ∧ (a.extractLsb' 6 26 ≠ b.extractLsb' 6 26 →
          r.kind = .evict ∧ r.evicted = true
            ∧ r.snapshot = some { set := a.extractLsb' 2 4, tag := a.extractLsb' 6 26, valid := true, data := lanes v }
            ∧ ∃ q : ReadResponse, exec (.read a) u = .next u ∧ respond (.read a) u = .read q
                ∧ q.kind = .missConflict ∧ q.byte = none ∧ q.storedTag = some (b.extractLsb' 6 26))

/-! ## DUMP -/

/-- DUMP completes, leaves the state as it is and returns the valid lines, each exactly once, in ascending set order, with
their count (43_dump.md), the whole list in one response (D18, log entry 15); and it is the operation of op 10, addr and
wdata ignored (the code: D7, log entry 6). -/
def Obligations.DumpListsValidLines : Prop :=
  ∀ s : State,
    (∀ (addr : Addr) (wdata : Word), decode (0b10#2 ++ addr ++ wdata) = .ok .dump)
      ∧ exec .dump s = .next s
      ∧ ∃ r : DumpResponse, respond .dump s = .dump r
        ∧ r.count.toNat = r.entries.length
        ∧ r.entries.Pairwise (fun v v' => v.set.toNat < v'.set.toNat)
        ∧ ∀ v : LineView, v ∈ r.entries ↔ (s.line v.set).valid = true ∧ v.valid = true
            ∧ v.tag = (s.line v.set).tag ∧ v.data = (s.line v.set).data

/-- Two DUMPs with only READs and DUMPs between them return the same, and a DUMP does not change what any later operation
does or returns (43_dump.md, derived there). -/
def Obligations.DumpIsRestartable : Prop :=
  ∀ s t : State, exec .dump s = .next t →
    (∀ i, exec i t = exec i s ∧ respond i t = respond i s)
      ∧ ∀ is : List Instr, (∀ i ∈ is, isWrite i = false) →
          ∃ u, execAll is t = .next u ∧ exec .dump u = .next u ∧ respond .dump u = respond .dump s

/-! ## RESET and the port -/

/-- R68: every line is in state Invalid in the state the machine starts from and after every RESET event. -/
def Obligations.LinesStartInvalid : Prop :=
  (∀ set, (State.reset.line set).state = .invalid)
    ∧ ∀ s : State, s.inputs.head? = some .reset →
        ∃ t, step s = .next t ∧ ∀ set, (t.line set).state = .invalid

/-- A RESET event completes from every state: every valid bit cleared, no response, the other inputs still to come; the
tags and data are the draw of that RESET, a free value of the model (70_reset_and_hazards.md section 1, D5; log entries 1,
4 and 12). -/
def Obligations.ResetStepDrawsContents : Prop :=
  ∀ (s : State) (rest : List Input), s.inputs = .reset :: rest →
    stepResponse s = none
      ∧ ∃ t, step s = .next t ∧ t.inputs = rest ∧ t.draws = s.draws + 1
        ∧ ∀ set, (t.line set).valid = false ∧ (t.line set).tag = Config.resetTag s.draws set
            ∧ ∀ k, (t.line set).byte k = Config.resetByte s.draws set k

/-- Right after RESET (of any state, or in the state the machine starts from) DUMP counts 0 lines, and READ of every
address is MISS_COLD (70_reset_and_hazards.md section 1, derived there) and reports nothing stored and no byte (D6; absent as
`none`: log entry 8). -/
def Obligations.FreshCacheIsCold : Prop :=
  ∀ t : State, (t = State.reset ∨ ∃ s : State, s.inputs.head? = some .reset ∧ step s = .next t) →
    exec .dump t = .next t ∧ respond .dump t = .dump { count := 0#5, entries := [] }
      ∧ ∀ addr : Addr, ∃ r : ReadResponse, exec (.read addr) t = .next t ∧ respond (.read addr) t = .read r
          ∧ r.kind = .missCold ∧ r.storedValid = false ∧ r.storedTag = none ∧ r.storedByte = none ∧ r.byte = none

/-- A step runs the operation its request decodes to, on the state with that request taken off the port, and returns that
operation's response (the port as a list of inputs is the model's choice, log entry 2). -/
def Obligations.StepRunsDecodedRequest : Prop :=
  ∀ (s : State) (w : RequestWord) (rest : List Input) (i : Instr),
    s.inputs = .request w :: rest → decode w = .ok i →
      step s = exec i { s with inputs := rest } ∧ stepResponse s = some (respond i { s with inputs := rest })

/-- A table word placed on the port runs as the very next operation, on the state as it was (log entry 2). -/
def Obligations.PlacedWordRunsNext : Prop :=
  ∀ (s : State) (nbits w : Nat) (i : Instr), decodeTableWord nbits w = some i →
    step (s.withFetchWord nbits w) = exec i s ∧ stepResponse (s.withFetchWord nbits w) = some (respond i s)

/-- With nothing presented, a step completes, changes nothing and returns nothing (60_exceptions.md section 8; D2, log entry
9); and a step that changes a line had a RESET or a WRITE before it. -/
def Obligations.OnlyWriteAndResetChangeLines : Prop :=
  (∀ s : State, s.inputs = [] → step s = .next s ∧ stepResponse s = none)
    ∧ ∀ s t : State, step s = .next t → t.lines ≠ s.lines →
        s.inputs.head? = some .reset
          ∨ ∃ w addr wdata, s.inputs.head? = some (.request w) ∧ decode w = .ok (.write addr wdata)

/-- A step is refused exactly for a request with op = 11, by that name, and then returns no response (30_encoding.md section
3; D8, log entry 7). -/
def Obligations.StepRefusesExactlyReservedRequests : Prop :=
  ∀ (s : State) (why : Refusal),
    (step s = .refused why ↔
      why = .reservedOp ∧ ∃ (addr : Addr) (wdata : Word), s.inputs.head? = some (.request (0b11#2 ++ addr ++ wdata)))
      ∧ (step s = .refused why → stepResponse s = none)

/-- READs and DUMPs leave nothing behind: after any operations the state is that which their WRITEs alone would have left,
however many READs and DUMPs stood between them (41_read.md and 43_dump.md: they write no state). That no operation's
response, WRITE's among them, stays in the state is `StepReturnsResponseAndKeepsLinesAlone`. -/
def Obligations.ReadsAndDumpsLeaveNothingBehind : Prop :=
  ∀ (is : List Instr) (s : State), execAll is s = execAll (is.filter isWrite) s

/-! ## The whole machine -/

/-- Every step moves every line as the line-state machine's table says (44_line_state_machine.md): by a WRITE none but the
decoded one; by READ and DUMP none (derived there); by a RESET all; by an idle step none (60_exceptions.md section 8; D2, log
entry 9). A WRITE's kind and eviction signal are the table's, with the snapshot of the line as it was, and the line's data
become the written bytes (their order: D4, log entry 5); without eviction the snapshot is absent (D20, log entry 8). -/
def Obligations.StepsFollowLineStateMachine : Prop :=
  ∀ s t : State, step s = .next t →
    (∀ set, (t.line set).state = (s.line set).state.after (nextLineEvent s set))
      ∧ (∀ w addr wdata, s.inputs.head? = some (.request w) → decode w = .ok (.write addr wdata) →
          (∀ set, set ≠ addr.extractLsb' 2 4 → t.line set = s.line set)
            ∧ (t.line (addr.extractLsb' 2 4)).data = lanes wdata
            ∧ ∃ r, stepResponse s = some (.write r)
              ∧ r.kind = (s.line (addr.extractLsb' 2 4)).state.writeKind (addr.extractLsb' 6 26)
              ∧ r.evicted = (s.line (addr.extractLsb' 2 4)).state.evicts (.write (addr.extractLsb' 6 26))
              ∧ r.snapshot = if r.evicted then some (s.view (addr.extractLsb' 2 4)) else none)

/-- R71: over any run without a RESET, a valid line stays valid; and the step after which a valid line is invalid is a
RESET. -/
def Obligations.ValidLinesStayValidUntilReset : Prop :=
  (∀ (n : Nat) (s t : State), runSteps n s = .next t → (∀ i ∈ s.inputs, i ≠ .reset) →
      ∀ set, (s.line set).valid = true → (t.line set).valid = true)
    ∧ ∀ (s t : State) (set : SetIndex), step s = .next t → (s.line set).valid = true → (t.line set).valid = false →
        s.inputs.head? = some .reset

/-- R13: what an invalid line holds never shows. Two states that differ at most in the contents of invalid lines (and in
the number of draws) return the same responses over any number of steps, and end alike. -/
def Obligations.InvalidContentsNeverShow : Prop :=
  ∀ (n : Nat) (s s' : State), SameDefined s s' →
    responses n s = responses n s' ∧ OutcomesAgree (runSteps n s) (runSteps n s')

/-- A step from a state of a safe run completes, only operations are still presented after it, and the response it returns
tells the truth about the line array it leaves (30_encoding.md section 4; absent fields D6 and D20, log entry 8). -/
def Obligations.SafeStepKeepsResponseTruthful : Prop :=
  ∀ s : State, OnlyOperations s →
    ∃ t, step s = .next t ∧ OnlyOperations t ∧ ∀ r, stepResponse s = some r → r.Coherent t

/-- The state the machine starts from is one of a safe run, whatever operations are then presented to it, with every line
invalid. -/
def Obligations.ResetMeetsInvariant : Prop :=
  ∀ is : List Instr, OnlyOperations { State.reset with inputs := requests is }
    ∧ AllInvalid { State.reset with inputs := requests is }

/-- No request sequence of the three operations (60_exceptions.md section 1), with RESETs (the same, D21; log entry 12) and
idle steps (section 8, D2; log entry 9) among them, ever stops the block. -/
def Obligations.OperationsNeverStop : Prop :=
  ∀ (n : Nat) (s : State), OnlyOperations s → ∃ t, runSteps n s = .next t

/-- From any state with every line invalid, after any sequence of operations, a READ is answered by the most recent WRITE
to its set alone: cold if there was none, a hit with the byte of that word if the tag agrees, else a conflict that shows
that write's tag and byte (20_memory.md section 4; request words D7, byte order D4, absent fields D6, log entry 8). -/
def Obligations.ReadAnswersFromWriteHistory : Prop :=
  ∀ (s : State) (is : List Instr) (b : Addr), AllInvalid s → s.inputs = requests (is ++ [.read b]) →
    ∃ (t : State) (r : ReadResponse), runSteps (is.length + 1) s = .next t
      ∧ responses (is.length + 1) s = responses is.length s ++ [.read r]
      ∧ r.set = b.extractLsb' 2 4 ∧ r.tag = b.extractLsb' 6 26 ∧ r.offset = b.extractLsb' 0 2
      ∧ match lastWrite (b.extractLsb' 2 4) is with
        | none => r.kind = .missCold ∧ r.storedValid = false ∧ r.storedTag = none ∧ r.storedByte = none ∧ r.byte = none
        | some (tag, wdata) =>
          r.storedValid = true ∧ r.storedTag = some tag
            ∧ r.storedByte = some (wdata.extractLsb' (8 * (b.extractLsb' 0 2).toNat) 8)
            ∧ if tag = b.extractLsb' 6 26 then r.kind = .hit ∧ r.byte = r.storedByte
              else r.kind = .missConflict ∧ r.byte = none

/-- From any state with every line invalid, after any sequence of operations, DUMP lists exactly the sets that have been
written, each with its most recent tag and data, in ascending order (43_dump.md, derived there; request words D7, byte order
D4, one response D18). -/
def Obligations.DumpListsWriteHistory : Prop :=
  ∀ (s : State) (is : List Instr), AllInvalid s → s.inputs = requests (is ++ [.dump]) →
    ∃ (t : State) (r : DumpResponse), runSteps (is.length + 1) s = .next t
      ∧ responses (is.length + 1) s = responses is.length s ++ [.dump r]
      ∧ r.entries = historyViews is ∧ r.count.toNat = (historyViews is).length

/-! ## Response bits -/

/-- The 77 bits of a READ response, whatever is driven where a field is absent (30_encoding.md section 4; layout and codes
D9; log entry 8). -/
def Obligations.ReadResponseLayout : Prop :=
  ∀ (r : ReadResponse) (undriven : BitVec 77),
    (r.pack undriven).extractLsb' 75 2 = (match r.kind with | .hit => 0b00#2 | .missCold => 0b01#2 | .missConflict => 0b10#2)
      ∧ (r.pack undriven).extractLsb' 71 4 = r.set ∧ (r.pack undriven).extractLsb' 45 26 = r.tag
      ∧ (r.pack undriven).extractLsb' 43 2 = r.offset ∧ (r.pack undriven).getLsbD 42 = r.storedValid
      ∧ (∀ t, r.storedTag = some t → (r.pack undriven).extractLsb' 16 26 = t)
      ∧ (∀ b, r.storedByte = some b → (r.pack undriven).extractLsb' 8 8 = b)
      ∧ (∀ b, r.byte = some b → (r.pack undriven).extractLsb' 0 8 = b)

/-- The 129 bits of a WRITE response, whatever is driven where the snapshot is absent (30_encoding.md section 4; layout
and codes D9; log entry 8). -/
def Obligations.WriteResponseLayout : Prop :=
  ∀ (r : WriteResponse) (undriven : BitVec 129),
    (r.pack undriven).extractLsb' 127 2 = (match r.kind with | .fill => 0b00#2 | .update => 0b01#2 | .evict => 0b10#2)
      ∧ (r.pack undriven).getLsbD 126 = r.evicted
      ∧ (∀ v, r.snapshot = some v →
          (r.pack undriven).extractLsb' 122 4 = v.set ∧ (r.pack undriven).extractLsb' 96 26 = v.tag
            ∧ (r.pack undriven).getLsbD 95 = v.valid
            ∧ ∀ k : Offset, (r.pack undriven).extractLsb' (63 + 8 * k.toNat) 8 = v.data[k.toNat]'k.isLt)
      ∧ (r.pack undriven).extractLsb' 59 4 = r.newLine.set ∧ (r.pack undriven).extractLsb' 33 26 = r.newLine.tag
      ∧ (r.pack undriven).getLsbD 32 = r.newLine.valid
      ∧ ∀ k : Offset, (r.pack undriven).extractLsb' (8 * k.toNat) 8 = r.newLine.data[k.toNat]'k.isLt

/-- The count and the 16 entry slots of the DUMP response to any state: the first `count` slots hold the entries in order,
each field at its bits, and the slots from `count` up show whatever is driven there (30_encoding.md section 4; D9, D18; log
entries 8 and 15). -/
def Obligations.DumpResponseLayout : Prop :=
  ∀ (s : State) (r : DumpResponse) (undriven : BitVec 63), respond .dump s = .dump r →
    r.count.toNat = r.entries.length
      ∧ (∀ k : Fin 16, r.entries.length ≤ k.val → r.slot undriven k = undriven)
      ∧ ∀ (k : Fin 16) (v : LineView), r.entries[k.val]? = some v →
          (r.slot undriven k).extractLsb' 59 4 = v.set ∧ (r.slot undriven k).extractLsb' 33 26 = v.tag
            ∧ (r.slot undriven k).getLsbD 32 = true
            ∧ ∀ j : Offset, (r.slot undriven k).extractLsb' (8 * j.toNat) 8 = v.data[j.toNat]'j.isLt

/-- A requester that reads each field of a READ or WRITE response under its presence condition recovers exactly the
response, whatever the hardware drives elsewhere (30_encoding.md section 4; D6, D9; log entry 8). -/
def Obligations.ResponseBitsRecoverResponse : Prop :=
  (∀ (s : State) (addr : Addr) (r : ReadResponse) (undriven : BitVec 77),
      respond (.read addr) s = .read r → unpackReadResponse (r.pack undriven) = some r)
    ∧ ∀ (s : State) (addr : Addr) (wdata : Word) (r : WriteResponse) (undriven : BitVec 129),
      respond (.write addr wdata) s = .write r → unpackWriteResponse (r.pack undriven) = some r

/-! ## What a step returns -/

/-- The block takes its line array and an operation to the line array it leaves and the response it returns with the step
(`perform`): the response goes to the requester and into no state (10_state.md section 2; D23, log entry 3). -/
def Obligations.StepReturnsResponseAndKeepsLinesAlone : Prop :=
  ∀ (s : State) (i : Instr) (rest : List Input), s.inputs = .request (encode i) :: rest →
    stepReturning s = .next ({ lines := (perform i s.lines).1, inputs := rest, draws := s.draws },
      some (perform i s.lines).2)
end

