-- ==== Sys2Proof/Laws/Bits.lean ====
section
/-! SUPPORT. Taking bits out of a concatenation, for the layouts of requests and responses. -/

namespace Sys2Proof

theorem extract_append_high {w v : Nat} (x : BitVec w) (y : BitVec v) (start len : Nat) (h : v ≤ start) :
    (x ++ y).extractLsb' start len = x.extractLsb' (start - v) len := by
  apply BitVec.eq_of_getLsbD_eq
  intro i hi
  have h1 : ¬ start + i < v := by omega
  have h2 : start + i - v = start - v + i := by omega
  simp [BitVec.getLsbD_append, hi, h1, h2]

theorem extract_append_low {w v : Nat} (x : BitVec w) (y : BitVec v) (start len : Nat) (h : start + len ≤ v) :
    (x ++ y).extractLsb' start len = y.extractLsb' start len := by
  apply BitVec.eq_of_getLsbD_eq
  intro i hi
  have h1 : start + i < v := by omega
  simp [BitVec.getLsbD_append, hi, h1]

theorem bit_append_high {w v : Nat} (x : BitVec w) (y : BitVec v) (i : Nat) (h : v ≤ i) :
    (x ++ y).getLsbD i = x.getLsbD (i - v) := by
  have h1 : ¬ i < v := by omega
  simp [BitVec.getLsbD_append, h1]

theorem bit_append_low {w v : Nat} (x : BitVec w) (y : BitVec v) (i : Nat) (h : i < v) :
    (x ++ y).getLsbD i = y.getLsbD i := by
  simp [BitVec.getLsbD_append, h]

theorem extract_whole {w : Nat} (x : BitVec w) : x.extractLsb' 0 w = x := by
  apply BitVec.eq_of_getLsbD_eq
  intro i hi
  simp [hi]

theorem extract_extract {n : Nat} (z : BitVec n) (start len start' len' : Nat) (h : start' + len' ≤ len) :
    (z.extractLsb' start len).extractLsb' start' len' = z.extractLsb' (start + start') len' := by
  apply BitVec.eq_of_getLsbD_eq
  intro i hi
  have h1 : start' + i < len := by omega
  simp [hi, h1, Nat.add_assoc]

theorem bit_extract {n : Nat} (z : BitVec n) (start len i : Nat) (h : i < len) :
    (z.extractLsb' start len).getLsbD i = z.getLsbD (start + i) := by
  simp [h]

end Sys2Proof
end

