-- ==== Sys2Proof/Laws/Operands.lean ====
section
/-! SUPPORT. The fields of concatenated words: a request word's three fields, an address's three fields, and the lanes of a
data word. -/

namespace Sys2Proof

/-- The bits of a request word, field by field. -/
theorem request_getLsbD (op : BitVec 2) (addr : Addr) (wdata : Word) (i : Nat) :
    BitVec.getLsbD (op ++ addr ++ wdata : RequestWord) i
      = if i < 32 then wdata.getLsbD i else if i < 64 then addr.getLsbD (i - 32) else op.getLsbD (i - 64) := by
  refine (BitVec.getLsbD_append (x := op ++ addr) (y := wdata)).trans ?_
  rw [BitVec.getLsbD_append]
  by_cases h : i < 32
  · simp [h]
  · have h1 : (i - 32 < 32) = (i < 64) := by simp; omega
    simp [h, h1, Nat.sub_sub]

theorem opField_append (op : BitVec 2) (addr : Addr) (wdata : Word) : opField (op ++ addr ++ wdata) = op := by
  ext i hi
  rw [opField, BitVec.getElem_extractLsb', request_getLsbD, if_neg (by omega), if_neg (by omega)]
  simp [hi]

theorem addrField_append (op : BitVec 2) (addr : Addr) (wdata : Word) : addrField (op ++ addr ++ wdata) = addr := by
  ext i hi
  rw [addrField, BitVec.getElem_extractLsb', request_getLsbD, if_neg (by omega), if_pos (by omega)]
  simp [hi]

theorem wdataField_append (op : BitVec 2) (addr : Addr) (wdata : Word) : wdataField (op ++ addr ++ wdata) = wdata := by
  ext i hi
  rw [wdataField, BitVec.getElem_extractLsb', request_getLsbD]
  simp [hi]

/-- A request word is the concatenation of its fields. -/
theorem fields_append (w : RequestWord) : opField w ++ addrField w ++ wdataField w = w := by
  apply BitVec.eq_of_getLsbD_eq
  intro i hi
  refine (request_getLsbD _ _ _ i).trans ?_
  simp only [opField, addrField, wdataField, BitVec.getLsbD_extractLsb']
  by_cases h : i < 32
  · simp [h]
  · by_cases h' : i < 64
    · have h1 : i - 32 < 32 := by omega
      have h2 : 32 + (i - 32) = i := by omega
      simp [h, h', h1, h2]
    · have h1 : i - 64 < 2 := by omega
      have h2 : 64 + (i - 64) = i := by omega
      simp [h, h', h1, h2]

namespace Machine

/-- The bits of an address, field by field. -/
theorem address_getLsbD (tag : Tag) (set : SetIndex) (offset : Offset) (i : Nat) :
    BitVec.getLsbD (tag ++ set ++ offset : Addr) i
      = if i < 2 then offset.getLsbD i else if i < 6 then set.getLsbD (i - 2) else tag.getLsbD (i - 6) := by
  refine (BitVec.getLsbD_append (x := tag ++ set) (y := offset)).trans ?_
  rw [BitVec.getLsbD_append]
  by_cases h : i < 2
  · simp [h]
  · have h1 : (i - 2 < 4) = (i < 6) := by simp; omega
    simp [h, h1, Nat.sub_sub]

theorem tag_append (tag : Tag) (set : SetIndex) (offset : Offset) :
    BitVec.extractLsb' 6 26 (tag ++ set ++ offset : Addr) = tag := by
  ext i hi
  rw [BitVec.getElem_extractLsb', address_getLsbD, if_neg (by omega), if_neg (by omega)]
  simp [hi]

theorem set_append (tag : Tag) (set : SetIndex) (offset : Offset) :
    BitVec.extractLsb' 2 4 (tag ++ set ++ offset : Addr) = set := by
  ext i hi
  rw [BitVec.getElem_extractLsb', address_getLsbD, if_neg (by omega), if_pos (by omega)]
  simp [hi]

theorem offset_append (tag : Tag) (set : SetIndex) (offset : Offset) :
    BitVec.extractLsb' 0 2 (tag ++ set ++ offset : Addr) = offset := by
  ext i hi
  rw [BitVec.getElem_extractLsb', address_getLsbD]
  simp [hi]

theorem decodeAddress_offset (a : Addr) : (decodeAddress a).offset = a.extractLsb' 0 2 := rfl
theorem decodeAddress_set (a : Addr) : (decodeAddress a).set = a.extractLsb' 2 4 := rfl
theorem decodeAddress_tag (a : Addr) : (decodeAddress a).tag = a.extractLsb' 6 26 := rfl

theorem decodeAddress_append (tag : Tag) (set : SetIndex) (offset : Offset) :
    decodeAddress (tag ++ set ++ offset) = { offset, set, tag } := by
  simp only [decodeAddress, tag_append, set_append, offset_append]

/-- Lane `k` of a data word is its bits [8k+7:8k] (20_memory.md R25). -/
theorem lanes_getElem (wdata : Word) (k : Offset) :
    (lanes wdata)[k.toNat]'k.isLt = wdata.extractLsb' (8 * k.toNat) 8 := by
  obtain ⟨⟨k, hk⟩⟩ := k
  rcases k with _ | _ | _ | _ | k
  · rfl
  · rfl
  · rfl
  · rfl
  · omega

end Machine

end Sys2Proof
end

