-- ==== Sys2Proof/Laws/State.lean ====
section
/-! SUPPORT. The small lemmas of the state operations: one per field per update, and reading a line after writing one. -/

namespace Sys2Proof.Machine

/-! Lines of an array -/

/-- Reading the line just written. -/
@[simp] theorem lineAt_putLine_same (a : LineArray) (set : SetIndex) (l : Line) : lineAt (putLine a set l) set = l := by
  simp [lineAt, putLine]

/-- Each line is separate storage (10_state.md R14). -/
theorem lineAt_putLine_other (a : LineArray) {set other : SetIndex} (l : Line) (h : other ≠ set) :
    lineAt (putLine a set l) other = lineAt a other := by
  have hne : set.toNat ≠ other.toNat := fun e => h (BitVec.eq_of_toNat_eq e.symm)
  simp [lineAt, putLine, Vector.getElem_set_ne, hne]

/-- Writing a line twice leaves what the second write put there. -/
@[simp] theorem putLine_putLine (a : LineArray) (set : SetIndex) (l l' : Line) :
    putLine (putLine a set l) set l' = putLine a set l' := by
  simp [putLine]

/-- Two arrays with the same 16 lines are the same array. -/
theorem lineArray_ext {a b : LineArray} (h : ∀ set, lineAt a set = lineAt b set) : a = b := by
  apply Vector.ext
  intro i hi
  have hs := h (BitVec.ofNat 4 i)
  have hm : i % 16 = i := Nat.mod_eq_of_lt hi
  simpa [lineAt, hm] using hs

/-! withLines -/

@[simp] theorem withLines_lines (s : State) (a : LineArray) : (s.withLines a).lines = a := rfl
@[simp] theorem withLines_inputs (s : State) (a : LineArray) : (s.withLines a).inputs = s.inputs := rfl
@[simp] theorem withLines_draws (s : State) (a : LineArray) : (s.withLines a).draws = s.draws := rfl
@[simp] theorem withLines_line (s : State) (a : LineArray) (set : SetIndex) : (s.withLines a).line set = lineAt a set := rfl
@[simp] theorem withLines_view (s : State) (a : LineArray) (set : SetIndex) : (s.withLines a).view set = viewAt a set := rfl
@[simp] theorem withLines_self (s : State) : s.withLines s.lines = s := rfl

/-! takeInput and present -/

theorem takeInput_nil {s : State} (h : s.inputs = []) : s.takeInput = none := by
  simp [State.takeInput, h]

theorem takeInput_cons {s : State} {i : Input} {rest : List Input} (h : s.inputs = i :: rest) :
    s.takeInput = some (i, { s with inputs := rest }) := by
  simp [State.takeInput, h]

@[simp] theorem takeInput_present (s : State) (i : Input) : (s.present i).takeInput = some (i, s) := rfl

@[simp] theorem present_inputs (s : State) (i : Input) : (s.present i).inputs = i :: s.inputs := rfl
@[simp] theorem present_lines (s : State) (i : Input) : (s.present i).lines = s.lines := rfl
@[simp] theorem present_draws (s : State) (i : Input) : (s.present i).draws = s.draws := rfl
@[simp] theorem present_line (s : State) (i : Input) (set : SetIndex) : (s.present i).line set = s.line set := rfl

/-! Idling and RESET -/

@[simp] theorem idle_eq (s : State) : idle s = s := rfl

@[simp] theorem applyReset_inputs (s : State) : (applyReset s).inputs = s.inputs := rfl
@[simp] theorem applyReset_lines (s : State) : (applyReset s).lines = resetLines s.draws := rfl
@[simp] theorem applyReset_draws (s : State) : (applyReset s).draws = s.draws + 1 := rfl

/-- Every line of a RESET array is the drawn line of its index (70_reset_and_hazards.md R86). -/
@[simp] theorem lineAt_resetLines (draw : Nat) (set : SetIndex) : lineAt (resetLines draw) set = resetLine draw set := by
  simp [lineAt, resetLines]

theorem applyReset_line (s : State) (set : SetIndex) : (applyReset s).line set = resetLine s.draws set :=
  lineAt_resetLines s.draws set

theorem reset_line (set : SetIndex) : State.reset.line set = resetLine 0 set :=
  lineAt_resetLines 0 set

@[simp] theorem resetLine_valid (draw : Nat) (set : SetIndex) : (resetLine draw set).valid = false := rfl
@[simp] theorem resetLine_tag (draw : Nat) (set : SetIndex) : (resetLine draw set).tag = Config.resetTag draw set := rfl

theorem resetLine_byte (draw : Nat) (set : SetIndex) (k : Offset) :
    (resetLine draw set).byte k = Config.resetByte draw set k := by
  simp [resetLine, Line.byte]

/-! The set indexes -/

/-- Every set index is visited by DUMP's loop. -/
theorem mem_setsAscending (set : SetIndex) : set ∈ setsAscending := by
  refine List.mem_map.2 ⟨set.toNat, List.mem_range.2 set.isLt, ?_⟩
  simp

/-- DUMP's loop visits the set indexes in strictly ascending order. -/
theorem setsAscending_pairwise : setsAscending.Pairwise (· < ·) := by
  decide

theorem setsAscending_length : setsAscending.length = 16 := by
  decide

end Sys2Proof.Machine
end

