-- ==== Sys2Proof/Laws/Exec.lean ====
section
/-! SUPPORT. What the meanings and a step can do, said once each, so that later proofs need not unfold them. -/

namespace Sys2Proof.Machine

/-! Lookup (40_decode_compare.md R54) -/

theorem lookup_invalid {l : Line} (t : Tag) (h : l.valid = false) : lookup l t = .missCold := by
  simp [lookup, h]

theorem lookup_conflict {l : Line} {t : Tag} (h : l.valid = true) (ht : l.tag ≠ t) : lookup l t = .missConflict := by
  simp [lookup, tagMatch, h, ht]

theorem lookup_hit {l : Line} {t : Tag} (h : l.valid = true) (ht : l.tag = t) : lookup l t = .hit := by
  simp [lookup, tagMatch, h, ht]

/-- A line is invalid, of another tag, or of this tag. -/
theorem lookup_cases (l : Line) (t : Tag) :
    (l.valid = false ∧ lookup l t = .missCold) ∨ (l.valid = true ∧ l.tag ≠ t ∧ lookup l t = .missConflict)
      ∨ (l.valid = true ∧ l.tag = t ∧ lookup l t = .hit) := by
  cases hv : l.valid with
  | false => exact .inl ⟨rfl, lookup_invalid t hv⟩
  | true =>
    by_cases ht : l.tag = t
    · exact .inr (.inr ⟨rfl, ht, lookup_hit hv ht⟩)
    · exact .inr (.inl ⟨rfl, ht, lookup_conflict hv ht⟩)

/-! The responses, one lemma per class of the line (41_read.md R57, 42_write.md R60) -/

theorem readResponse_cold {l : Line} (f : AddrFields) (h : l.valid = false) :
    readResponse l f
      = { kind := .missCold, set := f.set, tag := f.tag, offset := f.offset, storedValid := false, storedTag := none,
          storedByte := none, byte := none } := by
  simp [readResponse, lookup_invalid f.tag h, h]

theorem readResponse_conflict {l : Line} {f : AddrFields} (h : l.valid = true) (ht : l.tag ≠ f.tag) :
    readResponse l f
      = { kind := .missConflict, set := f.set, tag := f.tag, offset := f.offset, storedValid := true,
          storedTag := some l.tag, storedByte := some (l.byte f.offset), byte := none } := by
  simp [readResponse, lookup_conflict h ht, h]

theorem readResponse_hit {l : Line} {f : AddrFields} (h : l.valid = true) (ht : l.tag = f.tag) :
    readResponse l f
      = { kind := .hit, set := f.set, tag := f.tag, offset := f.offset, storedValid := true,
          storedTag := some f.tag, storedByte := some (l.byte f.offset), byte := some (l.byte f.offset) } := by
  simp [readResponse, lookup_hit h ht, h, ht]

theorem writeResponse_fill {old : Line} (set : SetIndex) (tag : Tag) (wdata : Word) (h : old.valid = false) :
    writeResponse old set tag wdata
      = { kind := .fill, evicted := false, snapshot := none, newLine := { set, tag, valid := true, data := lanes wdata } } := by
  simp [writeResponse, lookup_invalid tag h, writeKindOf]

theorem writeResponse_update {old : Line} (set : SetIndex) {tag : Tag} (wdata : Word) (h : old.valid = true)
    (ht : old.tag = tag) :
    writeResponse old set tag wdata
      = { kind := .update, evicted := false, snapshot := none,
          newLine := { set, tag, valid := true, data := lanes wdata } } := by
  simp [writeResponse, lookup_hit h ht, writeKindOf]

theorem writeResponse_evict {old : Line} (set : SetIndex) {tag : Tag} (wdata : Word) (h : old.valid = true)
    (ht : old.tag ≠ tag) :
    writeResponse old set tag wdata
      = { kind := .evict, evicted := true,
          snapshot := some { set, tag := old.tag, valid := true, data := old.data },
          newLine := { set, tag, valid := true, data := lanes wdata } } := by
  simp [writeResponse, lookup_conflict h ht, writeKindOf, h]

/-- Byte `k` of a line just written is bits [8k+7:8k] of its data word (20_memory.md R25). -/
theorem writtenLine_byte (tag : Tag) (wdata : Word) (k : Offset) :
    (writtenLine tag wdata).byte k = wdata.extractLsb' (8 * k.toNat) 8 :=
  lanes_getElem wdata k

/-! The valid views (43_dump.md R64) -/

theorem mem_validViews {a : LineArray} {v : LineView} :
    v ∈ validViews a ↔ (lineAt a v.set).valid = true ∧ v = viewAt a v.set := by
  simp only [validViews, List.mem_filterMap]
  constructor
  · rintro ⟨set, -, h⟩
    split at h
    · rename_i hv
      cases h
      exact ⟨hv, rfl⟩
    · cases h
  · rintro ⟨hv, h⟩
    exact ⟨v.set, mem_setsAscending _, by simp [hv, ← h]⟩

theorem validViews_pairwise (a : LineArray) : (validViews a).Pairwise (fun v v' => v.set < v'.set) := by
  refine List.Pairwise.filterMap _ ?_ setsAscending_pairwise
  intro x y h b hb b' hb'
  split at hb <;> cases hb
  split at hb' <;> cases hb'
  exact h

theorem validViews_length_le (a : LineArray) : (validViews a).length ≤ 16 :=
  (List.length_filterMap_le _ _).trans setsAscending_length.le

/-! The meanings and what they return. Each answers a next state; only WRITE touches a line, and one line alone; the
response is computed from the line array the operation found. -/

theorem exec_read (addr : Addr) (s : State) : exec (.read addr) s = .next s := rfl

theorem respond_read (addr : Addr) (s : State) :
    respond (.read addr) s = .read (readResponse (s.line (addr.extractLsb' 2 4)) (decodeAddress addr)) := rfl

theorem exec_write (addr : Addr) (wdata : Word) (s : State) :
    exec (.write addr wdata) s
      = .next (s.withLines (putLine s.lines (addr.extractLsb' 2 4) (writtenLine (addr.extractLsb' 6 26) wdata))) := rfl

theorem respond_write (addr : Addr) (wdata : Word) (s : State) :
    respond (.write addr wdata) s
      = .write (writeResponse (s.line (addr.extractLsb' 2 4)) (addr.extractLsb' 2 4) (addr.extractLsb' 6 26) wdata) := rfl

theorem exec_dump (s : State) : exec .dump s = .next s := rfl

theorem respond_dump (s : State) :
    respond .dump s
      = .dump { count := BitVec.ofNat 5 (validViews s.lines).length, entries := validViews s.lines } := rfl

/-- Every operation answers a next state: the same one, or for WRITE the one in which the decoded line is written. -/
theorem exec_cases (i : Instr) (s : State) :
    exec i s = .next s
      ∨ ∃ addr wdata, i = .write addr wdata
        ∧ exec i s
          = .next (s.withLines (putLine s.lines (addr.extractLsb' 2 4) (writtenLine (addr.extractLsb' 6 26) wdata))) := by
  cases i with
  | read addr => exact .inl (exec_read addr s)
  | write addr wdata => exact .inr ⟨addr, wdata, rfl, exec_write addr wdata s⟩
  | dump => exact .inl (exec_dump s)

/-! A step, one lemma per kind of input -/

theorem step_idle {s : State} (h : s.inputs = []) : step s = .next s := by
  simp [step, takeInput_nil h]

theorem stepResponse_idle {s : State} (h : s.inputs = []) : stepResponse s = none := by
  simp [stepResponse, takeInput_nil h]

theorem step_reset {s : State} {rest : List Input} (h : s.inputs = .reset :: rest) :
    step s = .next (applyReset { s with inputs := rest }) := by
  simp [step, takeInput_cons h]

theorem stepResponse_reset {s : State} {rest : List Input} (h : s.inputs = .reset :: rest) : stepResponse s = none := by
  simp [stepResponse, takeInput_cons h, inputResponse]

theorem stepReturning_next {s t : State} (h : step s = .next t) : stepReturning s = .next (t, stepResponse s) := by
  simp [stepReturning, h]

theorem stepReturning_refused {s : State} {why : Refusal} (h : step s = .refused why) : stepReturning s = .refused why := by
  simp [stepReturning, h]

/-- INVERSION OF A STEP: everything a step that completes can have done, and what it returned. -/
theorem step_cases {s t : State} (h : step s = .next t) :
    (s.inputs = [] ∧ t = s ∧ stepResponse s = none)
      ∨ (∃ rest, s.inputs = .reset :: rest ∧ t = applyReset { s with inputs := rest } ∧ stepResponse s = none)
      ∨ ∃ w rest i, s.inputs = .request w :: rest ∧ decode w = .ok i ∧ exec i { s with inputs := rest } = .next t
          ∧ stepResponse s = some (respond i s) := by
  rcases hs : s.inputs with _ | ⟨_ | _, rest⟩
  · rw [step_idle hs] at h
    cases h
    exact .inl ⟨rfl, rfl, stepResponse_idle hs⟩
  · rename_i w
    refine .inr (.inr ⟨w, rest, ?_⟩)
    simp only [step, takeInput_cons hs] at h
    rcases hd : decode w with _ | i
    · rw [hd] at h
      cases ‹DecodeError›
      cases h
    · rw [hd] at h
      refine ⟨i, rfl, rfl, h, ?_⟩
      simp [stepResponse, takeInput_cons hs, inputResponse, hd]
      rfl
  · rw [step_reset hs] at h
    cases h
    exact .inr (.inl ⟨rest, rfl, rfl, stepResponse_reset hs⟩)

end Sys2Proof.Machine
end

