-- ==== Sys2Proof/Laws/PerInstr.lean ====
section
/-! SUPPORT. The statement made of every operation as syntax: its encoded word is of its own row of the opcode table. -/

namespace Sys2Proof.Laws.TableRow

/-- The word of `i` meets the match of the row that bears its mnemonic, under the row's mask, and no other row's
(spec/opcode_table.json), and a requester may issue it (30_encoding.md R42). -/
def Statement (i : Instr) : Prop :=
  (opcodeTable.filter fun row => row.covers (encode i)).map OpcodeRow.mnemonic = [i.mnemonic]
    ∧ requestWellFormed (encode i) = true

/-- What a row's mask keeps of a request word is its op. -/
theorem mask_packRequest (op : BitVec 2) (addr : Addr) (wdata : Word) :
    packRequest op addr wdata &&& 0x30000000000000000#66 = packRequest op 0#32 0#32 := by
  have hm : 0x30000000000000000#66 = packRequest 0b11#2 0#32 0#32 := by decide
  apply BitVec.eq_of_getLsbD_eq
  intro i hi
  rw [hm, BitVec.getLsbD_and]
  simp only [packRequest, request_getLsbD]
  by_cases h : i < 32
  · simp [h]
  · by_cases h' : i < 64
    · simp [h, h']
    · have : i = 64 ∨ i = 65 := by omega
      rcases this with rfl | rfl <;> simp

/-- The rows a word meets depend on its op alone. -/
theorem rows_packRequest (op : BitVec 2) (addr : Addr) (wdata : Word) :
    (opcodeTable.filter fun row => row.covers (packRequest op addr wdata))
      = opcodeTable.filter fun row => row.covers (packRequest op 0#32 0#32) := by
  apply List.filter_congr
  intro row hrow
  have hmask : row.mask = 0x30000000000000000#66 := by
    revert row
    decide
  simp only [OpcodeRow.covers, hmask, mask_packRequest]

theorem requestWellFormed_packRequest (op : BitVec 2) (addr : Addr) (wdata : Word) :
    requestWellFormed (packRequest op addr wdata) = (op != 0b11#2) := by
  have h : (packRequest op addr wdata).extractLsb' 64 2 = op := opField_append op addr wdata
  rw [requestWellFormed, h]

theorem read (addr : Addr) : Statement (.read addr) := by
  refine ⟨?_, requestWellFormed_packRequest _ _ _⟩
  rw [encode, rows_packRequest]
  show _ = ["READ"]
  decide

theorem write (addr : Addr) (wdata : Word) : Statement (.write addr wdata) := by
  refine ⟨?_, requestWellFormed_packRequest _ _ _⟩
  rw [encode, rows_packRequest]
  show _ = ["WRITE"]
  decide

theorem dump : Statement .dump := by
  refine ⟨?_, requestWellFormed_packRequest _ _ _⟩
  rw [encode, rows_packRequest]
  show _ = ["DUMP"]
  decide

end Sys2Proof.Laws.TableRow
end

