-- ==== Sys2Proof/Laws/Run.lean ====
section
/-! SUPPORT. Runs of many steps, one step at a time. -/

namespace Sys2Proof.Machine

theorem runSteps_zero (s : State) : runSteps 0 s = .next s := rfl

/-- A run of any machine, first step first. -/
theorem run_succ (M : Host.Core) (n : Nat) (s : M.State) :
    M.run (n + 1) s
      = match M.step s with
        | .next t => M.run n t
        | .fault r => .fault r
        | .refused r => .refused r :=
  rfl

theorem run_succ_next (M : Host.Core) (n : Nat) {s t : M.State} (h : M.step s = .next t) :
    M.run (n + 1) s = M.run n t := by
  rw [run_succ, h]

theorem run_succ_refused (M : Host.Core) (n : Nat) {s : M.State} {r : M.Refusal} (h : M.step s = .refused r) :
    M.run (n + 1) s = .refused r := by
  rw [run_succ, h]

/-- A run goes on from the state its first step answers. -/
theorem runSteps_succ_next {s t : State} (n : Nat) (h : step s = .next t) : runSteps (n + 1) s = runSteps n t :=
  run_succ_next Sys2Proof.core n h

/-- A run stops at a refused step. -/
theorem runSteps_succ_refused {s : State} {r : Refusal} (n : Nat) (h : step s = .refused r) :
    runSteps (n + 1) s = .refused r :=
  run_succ_refused Sys2Proof.core n h

theorem responses_zero (s : State) : responses 0 s = [] := rfl

/-- The responses of a run: that of its first step, then those of the rest. -/
theorem responses_succ_next {s t : State} (n : Nat) (h : step s = .next t) :
    responses (n + 1) s = (stepResponse s).toList ++ responses n t := by
  simp [responses, stepReturning_next h]

/-- A refused step returns nothing and ends the run. -/
theorem responses_succ_refused {s : State} {r : Refusal} (n : Nat) (h : step s = .refused r) : responses (n + 1) s = [] := by
  simp [responses, stepReturning_refused h]

/-- INDUCTION OVER A RUN: what holds at its first state and is kept by every step that completes holds at its last. -/
theorem runSteps_induction {P : State → Prop} (keeps : ∀ s t, P s → step s = .next t → P t) :
    ∀ (n : Nat) (s t : State), P s → runSteps n s = .next t → P t
  | 0, s, t, hs, h => by
    cases h
    exact hs
  | n + 1, s, t, hs, h => by
    cases hstep : step s with
    | next u =>
      rw [runSteps_succ_next n hstep] at h
      exact runSteps_induction keeps n u t (keeps s u hs hstep) h
    | fault r => cases r
    | refused r =>
      rw [runSteps_succ_refused n hstep] at h
      cases h

end Sys2Proof.Machine
end

