-- ==== Sys2Proof/Tests/Slice0.lean ====
section
/-! SUPPORT. The model's own tests, with expected values from 95_test_vectors.md, and for every statement that has hypotheses
a witness that meets them. -/

namespace Sys2Proof.Tests

open Sys2Proof Sys2Proof.Machine

/-! Helpers: a small state, and what an outcome shows. -/

/-- An invalid line with stale contents (tag 5). -/
def stale : Line := { valid := false, tag := 0x5#26, data := #v[0x99#8, 0x98#8, 0x97#8, 0x96#8] }

/-- A valid line. -/
def held (tag : Tag) (a b c d : Byte) : Line := { valid := true, tag := tag, data := #v[a, b, c, d] }

/-- Every line invalid but line `set`. -/
def withLine (set : SetIndex) (l : Line) (inputs : List Input) : State :=
  { lines := putLine (Vector.replicate 16 stale) set l, inputs := inputs, draws := 1 }

/-- Line 0 as in section 2.3: {V 1, T 1, D [AA,BB,CC,DD]}. -/
def line0 : State := withLine 0 (held 0x1#26 0xAA#8 0xBB#8 0xCC#8 0xDD#8) []

def stateOf : Host.Outcome State Fault Refusal → Option State
  | .next t => some t
  | .fault _ => none
  | .refused _ => none

def refusalOf : Host.Outcome State Fault Refusal → Option Refusal
  | .next _ => none
  | .fault _ => none
  | .refused r => some r

/-! WellFormed: an ill-formed term for each check. -/

theorem test_geometry_accepted : Config.geometry.wellFormed = true := by decide

theorem test_geometry_refuses_8_lines : ({ Config.geometry with numLines := 8 } : Geometry).wellFormed = false := by decide

theorem test_geometry_refuses_32_lines_5_set_bits :
    ({ Config.geometry with numLines := 32, setBits := 5, tagBits := 25 } : Geometry).wellFormed = false := by decide

/-- 8-byte blocks, all three relations kept: not this hardware's constants (R7). -/
theorem test_geometry_refuses_8_byte_blocks :
    ({ Config.geometry with blockBytes := 8, offsetBits := 3, tagBits := 25, wdataBits := 64 } : Geometry).wellFormed
      = false := by decide

/-- 64-bit addresses, all three relations kept. -/
theorem test_geometry_refuses_64_bit_addresses :
    ({ Config.geometry with addrWidth := 64, tagBits := 58 } : Geometry).wellFormed = false := by decide

/-- One parameter changed at a time, each of the nine. -/
theorem test_geometry_refuses_each_change :
    ∀ g ∈ [{ Config.geometry with addrWidth := 33 }, { Config.geometry with byteBits := 9 },
      { Config.geometry with blockBytes := 5 }, { Config.geometry with offsetBits := 3 },
      { Config.geometry with setBits := 3 }, { Config.geometry with numLines := 17 },
      { Config.geometry with tagBits := 25 }, { Config.geometry with associativity := 2 },
      { Config.geometry with wdataBits := 64 }], g.wellFormed = false := by decide

/-- The types of the model have the geometry's widths and counts (R6). -/
theorem test_types_have_geometry :
    Addr = BitVec Config.geometry.addrWidth ∧ Byte = BitVec Config.geometry.byteBits
      ∧ Block = Vector Byte Config.geometry.blockBytes ∧ Offset = BitVec Config.geometry.offsetBits
      ∧ SetIndex = BitVec Config.geometry.setBits ∧ LineArray = Vector Line Config.geometry.numLines
      ∧ Tag = BitVec Config.geometry.tagBits ∧ Word = BitVec Config.geometry.wdataBits :=
  ⟨rfl, rfl, rfl, rfl, rfl, rfl, rfl, rfl⟩

theorem test_request_refuses_op_3 : requestWellFormed 0x30000000000000000#66 = false := by decide

theorem test_hex_refuses_no_digit : hexWellFormed [] = false := by decide

theorem test_hex_refuses_9_digits : hexWellFormed [1, 2, 3, 4, 5, 6, 7, 8, 9] = false := by decide

theorem test_command_r_refuses_no_digit : (Command.r []).wellFormed = false := by decide

theorem test_command_w_refuses_long_value : (Command.w [0] [1, 2, 3, 4, 5, 6, 7, 8, 9]).wellFormed = false := by decide

/-! Decode: words written out from the encodings of opcode_table.json (op, 32 addr bits, 32 wdata bits). -/

/-- READ 0x00000043, wdata all ones (section 2.7, row 1). -/
theorem test_decode_read :
    decode 0b000000000000000000000000000100001111111111111111111111111111111111#66 = .ok (.read 0x43#32) := by decide

/-- WRITE 0x00000040, 0xDDCCBBAA (section 2.7, row 2). -/
theorem test_decode_write :
    decode 0b010000000000000000000000000100000011011101110011001011101110101010#66 = .ok (.write 0x40#32 0xDDCCBBAA#32) := by
  decide

/-- DUMP, the ignored fields all ones. -/
theorem test_decode_dump :
    decode 0b101111111111111111111111111111111111111111111111111111111111111111#66 = .ok .dump := by decide

/-- op 11 (section 2.7, row 4). -/
theorem test_decode_reserved :
    decode 0b110000000000000000000000000000000000000000000000000000000000000000#66 = .error .reservedOp := by decide

theorem test_encode_write : encode (.write 0x40#32 0xDDCCBBAA#32) = 0x100000040DDCCBBAA#66 := by decide

theorem test_tableWord_write : decodeTableWord 66 0x100000040DDCCBBAA = some (.write 0x40#32 0xDDCCBBAA#32) := by decide

/-- The table's width rounded up to whole bytes. -/
theorem test_tableWord_72 : decodeTableWord 72 0x20000000000000000 = some .dump := by decide

theorem test_tableWord_reserved : decodeTableWord 66 0x30000000000000000 = none := by decide

/-- No two rows of the opcode table cover one word: their patterns differ under one mask. -/
theorem test_table_rows_disjoint :
    opcodeTable.Pairwise (fun r r' => r.mask = r'.mask ∧ r.pattern ≠ r'.pattern) := by decide

/-- `w 40 DDCCBBAA`, `r 3`, `q`, and what follows `q` (section 3, P1 and R49). -/
theorem test_transcribe :
    transcribe [.w [4, 0] [0xD, 0xD, 0xC, 0xC, 0xB, 0xB, 0xA, 0xA], .r [3], .q, .r []]
      = some [0x100000040DDCCBBAA#66, 0x00000000300000000#66] := by decide

theorem test_transcribe_refuses : transcribe [.p, .r [], .q] = none := by decide

/-! Address decoder (section 2.1). -/

theorem test_decodeAddress_12345678 :
    decodeAddress 0x12345678#32 = { offset := 0, set := 14, tag := 0x48D159#26 } := by decide

theorem test_decodeAddress_DEADBEEF :
    decodeAddress 0xDEADBEEF#32 = { offset := 3, set := 11, tag := 0x37AB6FB#26 } := by decide

theorem test_decodeAddress_80000000 :
    decodeAddress 0x80000000#32 = { offset := 0, set := 0, tag := 0x2000000#26 } := by decide

/-! READ (section 2.3). -/

/-- READ 0x00000043 hits and returns 0xDD. -/
theorem test_read_hit : respond (.read 0x43#32) line0 = .read
    { kind := .hit, set := 0, tag := 0x1#26, offset := 3, storedValid := true, storedTag := some 0x1#26,
      storedByte := some 0xDD#8, byte := some 0xDD#8 } := by decide

/-- READ 0x00000082 misses in conflict and shows the stale byte at its offset. -/
theorem test_read_conflict : respond (.read 0x82#32) line0 = .read
    { kind := .missConflict, set := 0, tag := 0x2#26, offset := 2, storedValid := true, storedTag := some 0x1#26,
      storedByte := some 0xCC#8, byte := none } := by decide

/-! WRITE (section 2.4). -/

/-- Row 3: WRITE(0x40, 0xDDCCBBAA) evicts tag 0 with its data. -/
theorem test_write_evict :
    respond (.write 0x40#32 0xDDCCBBAA#32) (withLine 0 (held 0x0#26 0x11#8 0x22#8 0x33#8 0x44#8) []) = .write
      { kind := .evict, evicted := true,
        snapshot := some { set := 0, tag := 0x0#26, valid := true, data := #v[0x11#8, 0x22#8, 0x33#8, 0x44#8] },
        newLine := { set := 0, tag := 0x1#26, valid := true, data := #v[0xAA#8, 0xBB#8, 0xCC#8, 0xDD#8] } } := by decide

/-- An invalid line whose stale tag (5) is the written one is filled, and the offset is ignored (R55, R27). -/
theorem test_write_fill_stale :
    (stateOf (exec (.write 0x0000014B#32 0x13121110#32) line0)).map (fun t => (t.line 2, t.line 0))
        = some (held 0x5#26 0x10#8 0x11#8 0x12#8 0x13#8, held 0x1#26 0xAA#8 0xBB#8 0xCC#8 0xDD#8)
      ∧ respond (.write 0x0000014B#32 0x13121110#32) line0 = .write
          { kind := .fill, evicted := false, snapshot := none,
            newLine := { set := 2, tag := 0x5#26, valid := true, data := #v[0x10#8, 0x11#8, 0x12#8, 0x13#8] } } := by decide

/-! DUMP (section 2.5). -/

/-- Lines 15 and 2 valid: listed in ascending set order. -/
theorem test_dump_order :
    (dumpOp (putLine (withLine 15 (held 0x3FFFFFF#26 0xA5#8 0xA5#8 0xA5#8 0xA5#8) []).lines 2
        (held 0x0#26 0x10#8 0x11#8 0x12#8 0x13#8))).2 = .dump { count := 2#5, entries :=
      [ { set := 2, tag := 0x0#26, valid := true, data := #v[0x10#8, 0x11#8, 0x12#8, 0x13#8] },
        { set := 15, tag := 0x3FFFFFF#26, valid := true, data := #v[0xA5#8, 0xA5#8, 0xA5#8, 0xA5#8] } ] } := by decide

/-- All 16 lines valid: the count is 16. -/
theorem test_dump_16 :
    (match respond .dump { lines := Vector.replicate 16 (held 0x0#26 0#8 0#8 0#8 0#8), inputs := [], draws := 1 } with
      | .dump r => r.count
      | _ => 0#5) = 16#5 := by decide

/-! Response bits (the packed values of sections 2.3 to 2.5; absent fields shown as 0). -/

theorem test_pack_read_conflict :
    ReadResponse.pack
      { kind := .missConflict, set := 0, tag := 0, offset := 0, storedValid := true, storedTag := some 1#26,
        storedByte := some 0xAA#8, byte := none } 0#77 = 0x1000000004000001AA00#77 := by decide

theorem test_pack_read_hit :
    ReadResponse.pack
      { kind := .hit, set := 0, tag := 1#26, offset := 3, storedValid := true, storedTag := some 1#26,
        storedByte := some 0xDD#8, byte := some 0xDD#8 } 0#77 = 0x3C000001DDDD#77 := by decide

theorem test_pack_read_cold :
    ReadResponse.pack
      { kind := .missCold, set := 15, tag := 0x3FFFFFF#26, offset := 3, storedValid := false, storedTag := none,
        storedByte := none, byte := none } 0#77 = 0xFFFFFFFF80000000000#77 := by decide

theorem test_pack_write_fill :
    WriteResponse.pack
      { kind := .fill, evicted := false, snapshot := none,
        newLine := { set := 0, tag := 0, valid := true, data := #v[0x11#8, 0x22#8, 0x33#8, 0x44#8] } } 0#129
      = 0x144332211#129 := by decide

theorem test_pack_write_evict :
    WriteResponse.pack
      { kind := .evict, evicted := true,
        snapshot := some { set := 0, tag := 0, valid := true, data := #v[0x11#8, 0x22#8, 0x33#8, 0x44#8] },
        newLine := { set := 0, tag := 1#26, valid := true, data := #v[0xAA#8, 0xBB#8, 0xCC#8, 0xDD#8] } } 0#129
      = 0x140000000A219910880000003DDCCBBAA#129 := by decide

theorem test_pack_write_update :
    WriteResponse.pack
      { kind := .update, evicted := false, snapshot := none,
        newLine := { set := 2, tag := 0, valid := true, data := #v[0x10#8, 0x11#8, 0x12#8, 0x13#8] } } 0#129
      = 0x80000000000000001000000113121110#129 := by decide

theorem test_pack_entry :
    LineView.pack { set := 15, tag := 0x3FFFFFF#26, valid := true, data := #v[0xA5#8, 0xA5#8, 0xA5#8, 0xA5#8] }
      = 0x7FFFFFFFA5A5A5A5#63 := by decide

/-! RESET and the step (sections 2.7 and 2.8). -/

/-- RESET makes a valid line Invalid and gives no response. -/
theorem test_reset_step :
    (stateOf (step (withLine 0 (held 0x1#26 1#8 2#8 3#8 4#8) [.reset, .request 0#66]))).map
        (fun t => ((t.line 0).valid, t.inputs, t.draws)) = some (false, [.request 0#66], 2)
      ∧ stepResponse (withLine 0 (held 0x1#26 1#8 2#8 3#8 4#8) [.reset, .request 0#66]) = none := by decide

/-- READ 0xFFFFFFFF as the first request after RESET is MISS_COLD (P4, step 2). -/
theorem test_first_read_cold :
    stepResponse (State.reset.withFetchWord 66 0x0FFFFFFFF00000000) = some (.read
      { kind := .missCold, set := 15, tag := 0x3FFFFFF#26, offset := 3, storedValid := false, storedTag := none,
        storedByte := none, byte := none }) := by decide

/-- DUMP as the first request after RESET counts 0 (P4, step 3). -/
theorem test_first_dump_empty :
    stepResponse (State.reset.withFetchWord 66 0x20000000000000000) = some (.dump { count := 0#5, entries := [] }) := by
  decide

/-- A reserved request is refused. -/
theorem test_reserved_refused :
    refusalOf (step (line0.withFetchWord 66 0x30000000000000000)) = some .reservedOp
      ∧ stepResponse (line0.withFetchWord 66 0x30000000000000000) = none := by decide

/-- The line-state machine's table (section 2.6). -/
theorem test_line_state_table : LineState.next (.valid 0x5#26) (.write 0x6#26) = .valid 0x6#26
    ∧ LineState.evicts (.valid 0x5#26) (.write 0x6#26) = true ∧ LineState.evicts .invalid (.write 0x5#26) = false
    ∧ LineState.next (.valid 0x5#26) .reset = .invalid := by decide

/-! Witnesses: for every statement with hypotheses, a state and operands that meet them, at a boundary of each clause. -/

theorem witness_IgnoredRequestFieldsDoNotMatter :
    (0xFFFFFFFF#32 : Addr).extractLsb' 2 30 = (0xFFFFFFFC#32 : Addr).extractLsb' 2 30 := by decide

theorem witness_CommandsBecomeRequestsInOrder :
    ∀ c ∈ [Command.w [0xF, 0xF, 0xF, 0xF, 0xF, 0xF, 0xF, 0xF] [0], .p], c.wellFormed = true ∧ c ≠ .q := by decide

theorem witness_AcceptedGeometryHasSixteenLines : Config.geometry.wellFormed = true := by decide

/-- Bit 0 alone and bit 25 alone differ, and equality (section 2.2). -/
theorem witness_LookupClassifiesByValidThenTag :
    stale.valid = false
      ∧ ((held 0x3FFFFFF#26 0#8 0#8 0#8 0#8).valid = true ∧ (held 0x3FFFFFF#26 0#8 0#8 0#8 0#8).tag ≠ 0x3FFFFFE#26)
      ∧ ((held 0x2000000#26 0#8 0#8 0#8 0#8).valid = true ∧ (held 0x2000000#26 0#8 0#8 0#8 0#8).tag ≠ 0x0#26)
      ∧ ((held 0x3FFFFFF#26 0#8 0#8 0#8 0#8).valid = true ∧ (held 0x3FFFFFF#26 0#8 0#8 0#8 0#8).tag = 0x3FFFFFF#26) := by
  decide

/-- Line 15 invalid with the searched tag stale in it; line 0 of another tag; line 0 of this tag. -/
theorem witness_ReadRespondsByLineState :
    ((line0.line 15).valid = false ∧ (line0.line 15).tag = 0x5#26)
      ∧ ((line0.line 0).valid = true ∧ (line0.line 0).tag ≠ 0x3FFFFFF#26)
      ∧ ((line0.line 0).valid = true ∧ (line0.line 0).tag = 0x1#26) := by decide

theorem witness_ReadAndDumpFrame :
    (∃ t, isWrite (.read 0xFFFFFFFF#32) = false ∧ exec (.read 0xFFFFFFFF#32) line0 = .next t)
      ∧ ∃ t, isWrite .dump = false ∧ exec .dump line0 = .next t :=
  ⟨⟨_, rfl, rfl⟩, ⟨_, rfl, rfl⟩⟩

theorem witness_WriteRespondsByLineState :
    (line0.line 15).valid = false
      ∧ ((line0.line 0).valid = true ∧ (line0.line 0).tag = 0x1#26)
      ∧ ((line0.line 0).valid = true ∧ (line0.line 0).tag ≠ 0x0#26) := by decide

/-- For WRITE 0xFFFFFFFF: another set; another tag of its set; another byte of its block. -/
theorem witness_WriteFrame :
    (0#4 ≠ (0xFFFFFFFF#32 : Addr).extractLsb' 2 4)
      ∧ ((0x38#32 : Addr).extractLsb' 2 4 ≠ (0xFFFFFFFF#32 : Addr).extractLsb' 2 4)
      ∧ ((0x3C#32 : Addr).extractLsb' 2 4 = (0xFFFFFFFF#32 : Addr).extractLsb' 2 4
          ∧ (0x3C#32 : Addr).extractLsb' 6 26 ≠ (0xFFFFFFFF#32 : Addr).extractLsb' 6 26)
      ∧ ((0xFFFFFFFC#32 : Addr).extractLsb' 2 30 = (0xFFFFFFFF#32 : Addr).extractLsb' 2 30) := by decide

theorem witness_WriteIgnoresOffset : (0xFFFFFFFC#32 : Addr).extractLsb' 0 2 = 0#2 := by decide

theorem witness_RepeatedWriteReportsUpdate : ∃ t, exec (.write 0x40#32 0#32) line0 = .next t := ⟨_, rfl⟩

theorem witness_WriteThenReadHits :
    (0xFFFFFFFF#32 : Addr).extractLsb' 2 30 = (0xFFFFFFFC#32 : Addr).extractLsb' 2 30 := by decide

/-- The same set, with the same tag and with another. -/
theorem witness_SecondWriteSeesFirst :
    ((0x0#32 : Addr).extractLsb' 2 4 = (0x3#32 : Addr).extractLsb' 2 4
        ∧ (0x0#32 : Addr).extractLsb' 6 26 = (0x3#32 : Addr).extractLsb' 6 26)
      ∧ ((0x0#32 : Addr).extractLsb' 2 4 = (0x40#32 : Addr).extractLsb' 2 4
        ∧ (0x0#32 : Addr).extractLsb' 6 26 ≠ (0x40#32 : Addr).extractLsb' 6 26) := by decide

theorem witness_DumpIsRestartable :
    (∃ t, exec .dump line0 = .next t) ∧ ∀ i ∈ [Instr.read 0x40#32, .dump], isWrite i = false :=
  ⟨⟨_, rfl⟩, by decide⟩

theorem witness_LinesStartInvalid : (withLine 15 (held 0#26 0#8 0#8 0#8 0#8) [.reset]).inputs.head? = some .reset := by decide

theorem witness_ResetStepDrawsContents :
    (withLine 15 (held 0#26 0#8 0#8 0#8 0#8) [.reset, .request 0#66]).inputs = .reset :: [.request 0#66] := by decide

theorem witness_FreshCacheIsCold :
    ∃ s t : State, (s.line 15).valid = true ∧ s.inputs.head? = some .reset ∧ step s = .next t :=
  ⟨withLine 15 (held 0#26 0#8 0#8 0#8 0#8) [.reset], _, by decide, by decide, rfl⟩

theorem witness_StepRunsDecodedRequest :
    (withLine 0 stale [.request 0x1FFFFFFFFA5A5A5A5#66]).inputs = .request 0x1FFFFFFFFA5A5A5A5#66 :: []
      ∧ decode 0x1FFFFFFFFA5A5A5A5#66 = .ok (.write 0xFFFFFFFF#32 0xA5A5A5A5#32) := by decide

theorem witness_PlacedWordRunsNext : decodeTableWord 72 0x0FFFFFFFF00000000 = some (.read 0xFFFFFFFF#32) := by decide

/-- Nothing presented; a WRITE, and a RESET, that change a line. -/
theorem witness_OnlyWriteAndResetChangeLines :
    line0.inputs = []
      ∧ ((stateOf (step (line0.present (.request 0x10000000000000000#66)))).map fun t => decide (t.line 0 = line0.line 0))
          = some false
      ∧ ((stateOf (step (line0.present .reset))).map fun t => (t.line 0).valid) = some false := by decide

theorem witness_StepRefusesExactlyReservedRequests :
    ∃ s, step s = .refused .reservedOp ∧ s.inputs.head? = some (.request (0b11#2 ++ 0#32 ++ 0#32)) :=
  ⟨line0.present (.request 0x30000000000000000#66), rfl, by decide⟩

theorem witness_StepsFollowLineStateMachine :
    ∃ s t : State, step s = .next t ∧ s.inputs.head? = some (.request 0x100000040DDCCBBAA#66)
      ∧ decode 0x100000040DDCCBBAA#66 = .ok (.write 0x40#32 0xDDCCBBAA#32) :=
  ⟨line0.present (.request 0x100000040DDCCBBAA#66), _, rfl, by decide, by decide⟩

/-- A run without a RESET from a state with a valid line; and a step that makes a valid line invalid. -/
theorem witness_ValidLinesStayValidUntilReset :
    (∃ t, runSteps 1 (line0.present (.request 0x20000000000000000#66)) = .next t
        ∧ (∀ i ∈ (line0.present (.request 0x20000000000000000#66)).inputs, i ≠ .reset) ∧ (line0.line 0).valid = true)
      ∧ ∃ t, step (line0.present .reset) = .next t ∧ ((line0.present .reset).line 0).valid = true
          ∧ (t.line 0).valid = false :=
  ⟨⟨_, rfl, by decide, by decide⟩, ⟨_, rfl, by decide, by decide⟩⟩

/-- Two states that differ in what an invalid line holds. -/
theorem witness_InvalidContentsNeverShow :
    line0 ≠ line0.withLines (putLine line0.lines 15 { stale with tag := 0x3FFFFFF#26 })
      ∧ SameDefined line0 (line0.withLines (putLine line0.lines 15 { stale with tag := 0x3FFFFFF#26 })) := by
  refine ⟨by decide, rfl, ?_⟩
  decide

/-- A DUMP presented; its step returns a response. -/
theorem witness_SafeStepKeepsResponseTruthful :
    OnlyOperations (line0.present (.request 0x20000000000000000#66))
      ∧ stepResponse (line0.present (.request 0x20000000000000000#66)) = some (respond .dump line0) := by
  refine ⟨fun w hw => ?_, by decide⟩
  simp only [present_inputs, List.mem_cons] at hw
  rcases hw with hw | hw
  · cases hw
    decide
  · cases hw

theorem witness_OperationsNeverStop : OnlyOperations (line0.present (.request 0x20000000000000000#66)) :=
  witness_SafeStepKeepsResponseTruthful.1

/-- Every line invalid, and a WRITE before the READ and the DUMP of its set; a READ of a set nobody wrote. -/
theorem witness_ReadAnswersFromWriteHistory :
    AllInvalid (withLine 0 stale (requests [.write 0x40#32 0#32, .read 0x43#32]))
      ∧ lastWrite 0#4 [Instr.write 0x40#32 0#32] = some (0x1#26, 0#32)
      ∧ lastWrite 15#4 [Instr.write 0x40#32 0#32] = none := by
  refine ⟨?_, by decide, by decide⟩
  unfold AllInvalid
  decide

theorem witness_DumpListsWriteHistory :
    AllInvalid (withLine 0 stale (requests ([.write 0xFFFFFFFF#32 0#32] ++ [.dump]))) := by
  unfold AllInvalid
  decide

/-- Entry 0 of a listed line, and a slot above the count. -/
theorem witness_DumpResponseLayout :
    ∃ r : DumpResponse, respond .dump line0 = .dump r
      ∧ r.entries.length ≤ (15 : Fin 16).val ∧ r.entries[(0 : Fin 16).val]? = some (line0.view 0) :=
  ⟨_, rfl, by decide, by decide⟩

theorem witness_ReadResponseLayout :
    ∃ r : ReadResponse, r.storedTag = some 0x1#26 ∧ r.storedByte = some 0xDD#8 ∧ r.byte = some 0xDD#8 :=
  ⟨{ kind := .hit, set := 0, tag := 1#26, offset := 3, storedValid := true, storedTag := some 1#26,
     storedByte := some 0xDD#8, byte := some 0xDD#8 }, by decide⟩

theorem witness_WriteResponseLayout :
    ∃ (r : WriteResponse) (v : LineView), r.snapshot = some v ∧ v.set = 15#4 :=
  ⟨{ kind := .evict, evicted := true, snapshot := some { set := 15, tag := 0, valid := true, data := #v[1#8, 2#8, 3#8, 4#8] },
     newLine := { set := 15, tag := 1#26, valid := true, data := #v[1#8, 2#8, 3#8, 4#8] } }, _, rfl, rfl⟩

theorem witness_ResponseBitsRecoverResponse :
    (∃ r : ReadResponse, respond (.read 0x43#32) line0 = .read r)
      ∧ ∃ r : WriteResponse, respond (.write 0x0#32 0#32) line0 = .write r :=
  ⟨⟨_, rfl⟩, ⟨_, rfl⟩⟩

/-- A WRITE presented. -/
theorem witness_StepReturnsResponseAndKeepsLinesAlone :
    (line0.present (.request 0x100000040DDCCBBAA#66)).inputs = .request (encode (.write 0x40#32 0xDDCCBBAA#32)) :: [] := by
  decide

end Sys2Proof.Tests
end

/-! PROOF. R13, "no rule of this spec gives a defined output that depends on `T[s]` or `D[s]`" of an invalid line: states
related by `SameDefined` return the same responses, and every step keeps them related. -/

namespace Sys2Proof.Machine

/-! The relation, line by line -/

/-- The form in which the relation is used and built below: any two corresponding lines are both invalid, or the same. -/
theorem sameDefined_iff {s s' : State} :
    SameDefined s s' ↔ s.inputs = s'.inputs
      ∧ ∀ set, ((s.line set).valid = false ∧ (s'.line set).valid = false) ∨ s.line set = s'.line set := by
  refine and_congr_right fun _ => forall_congr' fun set => ⟨fun ⟨hvalid, heq⟩ => ?_, ?_⟩
  · cases hv : (s.line set).valid with
    | false => exact .inl ⟨rfl, hvalid ▸ hv⟩
    | true => exact .inr (heq hv)
  · rintro (⟨hv, hv'⟩ | heq)
    · exact ⟨hv.trans hv'.symm, fun h => absurd (hv ▸ h) Bool.false_ne_true⟩
    · exact ⟨congrArg Line.valid heq, fun _ => heq⟩

section Related

variable {s s' : State}

theorem SameDefined.inputs_eq (h : SameDefined s s') : s.inputs = s'.inputs :=
  (sameDefined_iff.1 h).1

theorem SameDefined.line_cases (h : SameDefined s s') (set : SetIndex) :
    ((s.line set).valid = false ∧ (s'.line set).valid = false) ∨ s.line set = s'.line set :=
  (sameDefined_iff.1 h).2 set

/-- Related states present the same input and are related with it taken off the port, or both present nothing. -/
theorem SameDefined.takeInput_cases (h : SameDefined s s') :
    (s.takeInput = none ∧ s'.takeInput = none)
      ∨ ∃ input u u', s.takeInput = some (input, u) ∧ s'.takeInput = some (input, u') ∧ SameDefined u u' := by
  cases hin : s.inputs with
  | nil => exact .inl ⟨takeInput_nil hin, takeInput_nil (h.inputs_eq ▸ hin)⟩
  | cons input rest =>
    exact .inr ⟨input, _, _, takeInput_cons hin, takeInput_cons (h.inputs_eq ▸ hin),
      sameDefined_iff.2 ⟨rfl, h.line_cases⟩⟩

/-! What the operations return -/

/-- READ shows no stored field of an invalid line (41_read.md R58). -/
theorem SameDefined.readResponse_eq (h : SameDefined s s') (set : SetIndex) (f : AddrFields) :
    readResponse (s.line set) f = readResponse (s'.line set) f := by
  rcases h.line_cases set with ⟨hv, hv'⟩ | heq
  · rw [readResponse_cold f hv, readResponse_cold f hv']
  · rw [heq]

/-- WRITE takes no snapshot of an invalid line (42_write.md R62). -/
theorem SameDefined.writeResponse_eq (h : SameDefined s s') (set : SetIndex) (tag : Tag) (wdata : Word) :
    writeResponse (s.line set) set tag wdata = writeResponse (s'.line set) set tag wdata := by
  rcases h.line_cases set with ⟨hv, hv'⟩ | heq
  · rw [writeResponse_fill set tag wdata hv, writeResponse_fill set tag wdata hv']
  · rw [heq]

/-- A view shows the line and nothing else of the array. -/
theorem viewAt_congr {a b : LineArray} {set : SetIndex} (h : lineAt a set = lineAt b set) : viewAt a set = viewAt b set := by
  simp only [viewAt, h]

/-- DUMP omits the invalid lines (43_dump.md R64). -/
theorem SameDefined.validViews_eq (h : SameDefined s s') : validViews s.lines = validViews s'.lines := by
  refine List.filterMap_congr fun set _ => ?_
  rcases h.line_cases set with ⟨hv, hv'⟩ | heq
  · rw [State.line] at hv hv'
    simp [hv, hv']
  · rw [State.line, State.line] at heq
    rw [heq, viewAt_congr heq]

theorem SameDefined.respond_eq (h : SameDefined s s') (i : Instr) : respond i s = respond i s' := by
  cases i with
  | read addr => rw [respond_read, respond_read, h.readResponse_eq]
  | write addr wdata => rw [respond_write, respond_write, h.writeResponse_eq]
  | dump => rw [respond_dump, respond_dump, h.validViews_eq]

theorem SameDefined.inputResponse_eq (h : SameDefined s s') (input : Input) :
    inputResponse input s = inputResponse input s' := by
  cases input with
  | reset => rfl
  | request w => simp only [inputResponse, h.respond_eq]

theorem SameDefined.stepResponse_eq (h : SameDefined s s') : stepResponse s = stepResponse s' := by
  rcases h.takeInput_cases with ⟨hs, hs'⟩ | ⟨input, u, u', hs, hs', hu⟩
  · simp only [stepResponse, hs, hs']
  · simp only [stepResponse, hs, hs', hu.inputResponse_eq]

/-! What the operations leave -/

/-- The written line is the same whole line in both states, whatever the old lines held (20_memory.md R12). -/
theorem SameDefined.withLines_putLine (h : SameDefined s s') (set : SetIndex) (l : Line) :
    SameDefined (s.withLines (putLine s.lines set l)) (s'.withLines (putLine s'.lines set l)) := by
  refine sameDefined_iff.2 ⟨h.inputs_eq, fun other => ?_⟩
  by_cases hset : other = set
  · subst hset
    simp only [withLines_line, lineAt_putLine_same, or_true]
  · simp only [withLines_line, lineAt_putLine_other _ l hset]
    exact h.line_cases other

/-- Both states come out of RESET with every line invalid, and the drawn contents may differ (R86). -/
theorem SameDefined.applyReset (h : SameDefined s s') : SameDefined (applyReset s) (applyReset s') := by
  refine sameDefined_iff.2 ⟨h.inputs_eq, fun set => .inl ?_⟩
  simp only [applyReset_line, resetLine_valid, and_self]

theorem SameDefined.exec_agree (h : SameDefined s s') (i : Instr) : OutcomesAgree (exec i s) (exec i s') := by
  cases i with
  | read addr => exact h
  | write addr wdata => exact h.withLines_putLine _ _
  | dump => exact h

/-- One step keeps the relation: this is the induction step of the noninterference. -/
theorem SameDefined.step_agree (h : SameDefined s s') : OutcomesAgree (step s) (step s') := by
  rcases h.takeInput_cases with ⟨hs, hs'⟩ | ⟨input, u, u', hs, hs', hu⟩
  · simp only [step, hs, hs']
    exact h
  · cases input with
    | reset =>
      simp only [step, hs, hs']
      exact hu.applyReset
    | request w =>
      simp only [step, hs, hs']
      cases decode w with
      | ok i => exact hu.exec_agree i
      | error e =>
        cases e
        rfl

end Related

/-! Runs -/

/-- Outcomes that agree are two related next states or one refusal; there are no faults (60_exceptions.md R74). -/
theorem OutcomesAgree.cases {o o' : Host.Outcome State Fault Refusal} (h : OutcomesAgree o o') :
    (∃ t t', o = .next t ∧ o' = .next t' ∧ SameDefined t t') ∨ ∃ r, o = .refused r ∧ o' = .refused r := by
  match o, o', h with
  | .next t, .next t', h => exact .inl ⟨t, t', rfl, rfl, h⟩
  | .refused r, .refused _, rfl => exact .inr ⟨r, rfl, rfl⟩

/-- Settles O32 (R13), by induction on the number of steps: `SameDefined` is kept by a step (`step_agree`), and related
states return the same response (`stepResponse_eq`). -/
theorem invalidContentsNeverShow : Obligations.InvalidContentsNeverShow := by
  intro n
  induction n with
  | zero => exact fun s s' h => ⟨rfl, h⟩
  | succ n ih =>
    intro s s' h
    rcases h.step_agree.cases with ⟨t, t', hs, hs', ht⟩ | ⟨r, hs, hs'⟩
    · rw [responses_succ_next n hs, responses_succ_next n hs', h.stepResponse_eq,
        runSteps_succ_next n hs, runSteps_succ_next n hs']
      obtain ⟨hresponses, hagree⟩ := ih t t' ht
      exact ⟨congrArg _ hresponses, hagree⟩
    · rw [responses_succ_refused n hs, responses_succ_refused n hs',
        runSteps_succ_refused n hs, runSteps_succ_refused n hs']
      exact ⟨rfl, rfl⟩

end Sys2Proof.Machine

/-! PROOF. The comparator and the lookup (40_decode_compare.md R53 to R55). -/

namespace Sys2Proof.Machine

/-- The comparator is equality of the whole tag; the valid bit does not enter (R53). -/
theorem tagMatch_iff (l : Line) (t : Tag) : tagMatch l t = true ↔ l.tag = t := by
  simp only [tagMatch, beq_iff_eq]

/-- Settles O11 (R53 to R55): the comparator by `tagMatch_iff`, one lemma of the lookup per class of the line, and WRITE's
names by their table. -/
theorem lookupClassifiesByValidThenTag : Obligations.LookupClassifiesByValidThenTag := fun l t =>
  ⟨tagMatch_iff l t, lookup_invalid t, lookup_conflict, lookup_hit, rfl, rfl, rfl⟩

end Sys2Proof.Machine

/-! PROOF. When a line leaves and enters `Invalid` (44_line_state_machine.md R67, R68, R71). -/

namespace Sys2Proof.Machine

/-! Entering `Invalid` -/

/-- `Invalid` is exactly `V = 0`, whatever the line holds (R67). -/
theorem line_state_eq_invalid_iff (l : Line) : l.state = .invalid ↔ l.valid = false := by
  cases hv : l.valid <;> simp [Line.state, hv]

theorem resetLine_state (draw : Nat) (set : SetIndex) : (resetLine draw set).state = .invalid :=
  (line_state_eq_invalid_iff _).2 (resetLine_valid draw set)

/-- Settles O22 (R68): the reset state and the state a RESET answers hold lines of a draw, and each of those is `Invalid`
(`resetLine_state`). -/
theorem linesStartInvalid : Obligations.LinesStartInvalid := by
  refine ⟨fun set => ?_, fun s hhead => ?_⟩
  · rw [reset_line, resetLine_state]
  · obtain ⟨rest, hinputs⟩ := List.head?_eq_some_iff.1 hhead
    refine ⟨_, step_reset hinputs, fun set => ?_⟩
    rw [applyReset_line, resetLine_state]

/-! Staying valid -/

/-- No operation invalidates a line: WRITE leaves the line it writes valid and the others as they were, and READ and DUMP
write none (R69, R70). -/
theorem exec_keeps_valid {i : Instr} {s t : State} {set : SetIndex} (h : exec i s = .next t)
    (hvalid : (s.line set).valid = true) : (t.line set).valid = true := by
  rcases exec_cases i s with hsame | ⟨addr, wdata, -, hwrite⟩
  · cases hsame.symm.trans h
    exact hvalid
  · cases hwrite.symm.trans h
    rw [withLines_line]
    by_cases hset : set = addr.extractLsb' 2 4
    · rw [hset, lineAt_putLine_same]
      rfl
    · rw [lineAt_putLine_other _ _ hset]
      exact hvalid

/-- An operation takes nothing from the port: what is still to come stays (20_memory.md R33). -/
theorem exec_keeps_inputs {i : Instr} {s t : State} (h : exec i s = .next t) : t.inputs = s.inputs := by
  rcases exec_cases i s with hsame | ⟨addr, wdata, -, hwrite⟩
  · cases hsame.symm.trans h
    rfl
  · cases hwrite.symm.trans h
    exact withLines_inputs s _

/-- A step takes the next input off the port, or idles with none. -/
theorem step_inputs {s t : State} (h : step s = .next t) : t.inputs = s.inputs.tail := by
  rcases step_cases h with ⟨hnil, rfl, -⟩ | ⟨rest, hinputs, rfl, -⟩ | ⟨w, rest, i, hinputs, -, hexec, -⟩
  · rw [hnil]
    rfl
  · rw [hinputs, applyReset_inputs]
    rfl
  · rw [exec_keeps_inputs hexec, hinputs]
    rfl

/-- A step whose input is not RESET keeps every valid line valid (R71). -/
theorem step_keeps_valid {s t : State} {set : SetIndex} (h : step s = .next t) (hhead : s.inputs.head? ≠ some .reset)
    (hvalid : (s.line set).valid = true) : (t.line set).valid = true := by
  rcases step_cases h with ⟨-, rfl, -⟩ | ⟨rest, hinputs, -, -⟩ | ⟨w, rest, i, -, -, hexec, -⟩
  · exact hvalid
  · exact absurd (hinputs ▸ List.head?_cons) hhead
  · exact exec_keeps_valid hexec hvalid

/-- The invariant of a run without RESET: line `set` is valid, and no RESET is still to come. -/
def ValidNoResetPending (set : SetIndex) (s : State) : Prop :=
  (s.line set).valid = true ∧ ∀ i ∈ s.inputs, i ≠ .reset

theorem step_keeps_validNoResetPending {set : SetIndex} (s t : State) (hs : ValidNoResetPending set s)
    (h : step s = .next t) : ValidNoResetPending set t := by
  obtain ⟨hvalid, hnoReset⟩ := hs
  refine ⟨step_keeps_valid h (fun hhead => ?_) hvalid, fun i hi => ?_⟩
  · exact hnoReset _ (List.mem_of_mem_head? hhead) rfl
  · rw [step_inputs h] at hi
    exact hnoReset i (List.mem_of_mem_tail hi)

/-- Settles O31 (R71): over a run by its induction, with `ValidNoResetPending` as the invariant; over one step as the
contrapositive of `step_keeps_valid`. -/
theorem validLinesStayValidUntilReset : Obligations.ValidLinesStayValidUntilReset := by
  refine ⟨fun n s t hrun hnoReset set hvalid => ?_, fun s t set hstep hvalid hinvalid => ?_⟩
  · obtain ⟨hvalid', -⟩ :=
      runSteps_induction step_keeps_validNoResetPending n s t ⟨hvalid, hnoReset⟩ hrun
    exact hvalid'
  · by_contra hhead
    exact Bool.false_ne_true (hinvalid.symm.trans (step_keeps_valid hstep hhead hvalid))

end Sys2Proof.Machine

/-! PROOF. Request words and operations (30_encoding.md sections 1, 3, 5 and 6). -/

namespace Sys2Proof

/-! Decoding by op -/

/-- The decoder on the fields of a word (R37, R38). -/
theorem decode_append (op : BitVec 2) (addr : Addr) (wdata : Word) :
    decode (op ++ addr ++ wdata)
      = if op = 0b00#2 then .ok (.read addr) else if op = 0b01#2 then .ok (.write addr wdata)
        else if op = 0b10#2 then .ok .dump else .error .reservedOp := by
  simp only [decode, opField_append, addrField_append, wdataField_append]

theorem decode_read (addr : Addr) (wdata : Word) : decode (0b00#2 ++ addr ++ wdata) = .ok (.read addr) :=
  decode_append _ addr wdata

theorem decode_write (addr : Addr) (wdata : Word) :
    decode (0b01#2 ++ addr ++ wdata) = .ok (.write addr wdata) :=
  decode_append _ addr wdata

theorem decode_dump (addr : Addr) (wdata : Word) : decode (0b10#2 ++ addr ++ wdata) = .ok .dump :=
  decode_append _ addr wdata

theorem decode_reserved (addr : Addr) (wdata : Word) :
    decode (0b11#2 ++ addr ++ wdata) = .error .reservedOp :=
  decode_append _ addr wdata

/-- Settles O3, by the decoder's equation for the op of each operation. -/
theorem decodeEncodeRoundTrip : Obligations.DecodeEncodeRoundTrip := fun i =>
  match i with
  | .read addr => decode_read addr 0#32
  | .write addr wdata => decode_write addr wdata
  | .dump => decode_dump 0#32 0#32

/-- Settles O2: the four equations of the decoder, and a word is the concatenation of its fields. -/
theorem requestFieldsSelectOperation : Obligations.RequestFieldsSelectOperation :=
  ⟨fun addr wdata => ⟨decode_read addr wdata, decode_write addr wdata, decode_dump addr wdata, decode_reserved addr wdata⟩,
    fun w => ⟨opField w, addrField w, wdataField w, (fields_append w).symm⟩⟩

/-- Settles O1, by running the decoder on the four words of 95_test_vectors.md section 2.7. -/
theorem knownRequestWordsDecode : Obligations.KnownRequestWordsDecode := by
  refine ⟨?_, ?_, ?_, ?_⟩ <;> decide

/-- Every word decodes by one of the four ops (R38). -/
theorem decode_cases (w : RequestWord) :
    (opField w = 0b00#2 ∧ decode w = .ok (.read (addrField w)))
      ∨ (opField w = 0b01#2 ∧ decode w = .ok (.write (addrField w) (wdataField w)))
      ∨ (opField w = 0b10#2 ∧ decode w = .ok .dump)
      ∨ (opField w = 0b11#2 ∧ decode w = .error .reservedOp) := by
  have hops : ∀ op : BitVec 2, op = 0b00#2 ∨ op = 0b01#2 ∨ op = 0b10#2 ∨ op = 0b11#2 := by decide
  rcases hops (opField w) with h | h | h | h <;> simp [decode, h]

/-- The one error of the decoder is the reserved op (R42). -/
theorem decode_eq_error_iff (w : RequestWord) (e : DecodeError) : decode w = .error e ↔ opField w = 0b11#2 := by
  cases e
  rcases decode_cases w with ⟨hop, hd⟩ | ⟨hop, hd⟩ | ⟨hop, hd⟩ | ⟨hop, hd⟩ <;> simp [hop, hd]

/-- A requester may issue exactly the words that decode (R42). -/
theorem requestWellFormed_iff (w : RequestWord) : requestWellFormed w = true ↔ ∃ i, decode w = .ok i := by
  have h : requestWellFormed w = (opField w != 0b11#2) := rfl
  rcases decode_cases w with ⟨hop, hd⟩ | ⟨hop, hd⟩ | ⟨hop, hd⟩ | ⟨hop, hd⟩ <;> simp [h, hop, hd]

/-! The opcode table -/

/-- The rows of the table by the op their pattern holds. -/
theorem opcodeTable_eq :
    opcodeTable = [("READ", 0b00#2), ("WRITE", 0b01#2), ("DUMP", 0b10#2)].map fun row =>
      { mnemonic := row.1, mask := 0x30000000000000000#66, pattern := packRequest row.2 0#32 0#32 } := by
  decide

/-- A word meets a row's match exactly when its op is the one of the row's pattern. -/
theorem covers_iff_opField (mnemonic : String) (op : BitVec 2) (w : RequestWord) :
    OpcodeRow.covers { mnemonic, mask := 0x30000000000000000#66, pattern := packRequest op 0#32 0#32 } w = true
      ↔ opField w = op := by
  have hmask : w &&& 0x30000000000000000#66 = packRequest (opField w) 0#32 0#32 := by
    conv_lhs => rw [← fields_append w]
    exact Laws.TableRow.mask_packRequest _ _ _
  rw [OpcodeRow.covers, beq_iff_eq, hmask]
  refine ⟨fun h => ?_, fun h => h ▸ rfl⟩
  have hop := congrArg opField h
  rwa [packRequest, packRequest, opField_append, opField_append] at hop

/-- Settles O4: a row is met by its op alone (`covers_iff_opField`), and the op decides the operation (`decode_cases`). -/
theorem opcodeTableRowsDecideOperation : Obligations.OpcodeTableRowsDecideOperation := by
  intro w
  simp only [opcodeTable_eq, List.map_cons, List.map_nil, List.forall_mem_cons, ← Bool.not_eq_true, covers_iff_opField,
    requestWellFormed_iff]
  rcases decode_cases w with ⟨hop, hd⟩ | ⟨hop, hd⟩ | ⟨hop, hd⟩ | ⟨hop, hd⟩ <;> simp [hop, hd, Instr.mnemonic]

/-! Commands (section 5) -/

/-- A command other than `q` asks for an operation (R48, R49). -/
theorem command_instr_of_ne_q {c : Command} (h : c ≠ .q) : ∃ i, c.instr = some i := by
  cases c with
  | r addr => exact ⟨_, rfl⟩
  | w addr value => exact ⟨_, rfl⟩
  | p => exact ⟨_, rfl⟩
  | q => exact absurd rfl h

/-- A command that asks for an operation puts its one request before those of the commands after it (R49). -/
theorem transcribe_cons {c : Command} {i : Instr} (cs : List Command) (hwf : c.wellFormed = true) (hi : c.instr = some i) :
    transcribe (c :: cs) = (transcribe cs).map (encode i :: ·) := by
  simp only [transcribe, hwf, hi, if_true]

/-- `q` ends the stream, whatever comes after it (R49). -/
theorem transcribe_q (cs : List Command) : transcribe (.q :: cs) = some [] := rfl

/-- The digits of an operand, the most significant first: one more digit shifts the others by its four bits. -/
theorem hexValue_append_singleton (digits : HexOperand) (d : BitVec 4) :
    hexValue (digits ++ [d]) = hexValue digits <<< 4 ||| d.setWidth 32 := by
  simp only [hexValue, List.foldl_append, List.foldl_cons, List.foldl_nil]

/-- The last `n` hex digits of a value, the most significant first. -/
def hexDigits : Nat → BitVec 32 → HexOperand
  | 0, _ => []
  | n + 1, v => hexDigits n (v >>> 4) ++ [v.setWidth 4]

theorem hexDigits_length : ∀ (n : Nat) (v : BitVec 32), (hexDigits n v).length = n
  | 0, _ => rfl
  | n + 1, v => by rw [hexDigits, List.length_append, hexDigits_length, List.length_singleton]

/-- A value is its last digit after the others. -/
theorem shiftRight_shiftLeft_or_digit (v : BitVec 32) : v >>> 4 <<< 4 ||| (v.setWidth 4).setWidth 32 = v := by
  ext i hi
  by_cases h : i < 4
  · simp [h, BitVec.getLsbD_eq_getElem hi]
  · have hadd : 4 + (i - 4) = i := by omega
    simp [h, hadd, hi]

/-- Digits spell back a value that has no more of them. -/
theorem hexValue_hexDigits : ∀ (n : Nat) (v : BitVec 32), v >>> (4 * n) = 0#32 → hexValue (hexDigits n v) = v
  | 0, v, h => by
    rw [Nat.mul_zero, BitVec.ushiftRight_zero] at h
    exact h.symm
  | n + 1, v, h => by
    have hrest : v >>> 4 >>> (4 * n) = 0#32 := by rw [← BitVec.shiftRight_add, Nat.add_comm]; exact h
    rw [hexDigits, hexValue_append_singleton, hexValue_hexDigits n _ hrest, shiftRight_shiftLeft_or_digit]

/-- Eight digits hold every 32-bit value (R48). -/
theorem shiftRight_32_eq_zero (v : BitVec 32) : v >>> (4 * 8) = 0#32 :=
  BitVec.ushiftRight_eq_zero (le_refl 32)

/-- Settles O6: by induction on the commands before `q`, one request each (`transcribe_cons`); a value is spelled by its
eight digits (`hexValue_hexDigits`). -/
theorem commandsBecomeRequestsInOrder : Obligations.CommandsBecomeRequestsInOrder := by
  refine ⟨fun cs ds => ?_, fun v => ⟨hexDigits 8 v, ?_, hexValue_hexDigits 8 v (shiftRight_32_eq_zero v)⟩⟩
  · induction cs with
    | nil => exact fun _ => ⟨[], rfl, rfl, transcribe_q ds⟩
    | cons c cs ih =>
      intro h
      obtain ⟨⟨hwf, hq⟩, hcs⟩ := List.forall_mem_cons.1 h
      obtain ⟨i, hi⟩ := command_instr_of_ne_q hq
      obtain ⟨is, hinstr, halone, hbeforeQ⟩ := ih hcs
      refine ⟨i :: is, ?_, ?_, ?_⟩
      · rw [List.map_cons, List.map_cons, hinstr, hi]
      · rw [transcribe_cons cs hwf hi, halone]
        rfl
      · rw [List.cons_append, transcribe_cons _ hwf hi, hbeforeQ]
        rfl
  · rw [hexWellFormed, hexDigits_length]
    rfl

/-! The configuration (00_scope.md section 4) -/

theorem geometry_wellFormed_iff (g : Geometry) : g.wellFormed = true ↔ g = Config.geometry := beq_iff_eq

/-- Settles O7: the accepted configuration is the one of R6's table, field by field, and its relations are computed. -/
theorem acceptedGeometryHasSixteenLines : Obligations.AcceptedGeometryHasSixteenLines := by
  refine ⟨fun g => ?_, fun g hg => ?_⟩
  · rw [geometry_wellFormed_iff]
    cases g
    simp only [Config.geometry, Geometry.mk.injEq]
  · rw [(geometry_wellFormed_iff g).1 hg]
    decide

end Sys2Proof

/-! PROOF. The address decoder (40_decode_compare.md section 1, 20_memory.md section 1). -/

namespace Sys2Proof.Machine

/-! The decoder's fields -/

/-- A field of an address is a shift and a mask. -/
theorem setWidth_extract (a : Addr) (start len : Nat) :
    (a.extractLsb' start len).setWidth 32 = (a >>> start) &&& BitVec.ofNat 32 (2 ^ len - 1) := by
  apply BitVec.eq_of_getLsbD_eq
  intro i hi
  simp only [BitVec.getLsbD_setWidth, BitVec.getLsbD_extractLsb', BitVec.getLsbD_and, BitVec.getLsbD_ushiftRight,
    BitVec.getLsbD_ofNat, Nat.testBit_two_pow_sub_one, hi, decide_true, Bool.true_and, Bool.and_comm]

/-- The mask of the tag, which is the whole rest of the address, is not needed. -/
theorem setWidth_extract_tag (a : Addr) : (a.extractLsb' 6 26).setWidth 32 = a >>> 6 := by
  ext i hi
  by_cases h : i < 26
  · simp [h]
  · have hout : a.getLsbD (6 + i) = false := BitVec.getLsbD_of_ge a _ (by omega)
    simp [h, hout]

/-- Settles O8, a field at a time. -/
theorem addressFieldsAreShiftsAndMasks : Obligations.AddressFieldsAreShiftsAndMasks := fun a =>
  ⟨by simpa [decodeAddress_offset] using setWidth_extract a 0 2, setWidth_extract a 2 4, setWidth_extract_tag a⟩

/-- Settles O9: the bounds are those of the fields' widths; the address is rebuilt bit by bit, each bit from its field. -/
theorem addressFieldsRebuildAddress : Obligations.AddressFieldsRebuildAddress := by
  intro a
  refine ⟨BitVec.isLt _, BitVec.isLt _, BitVec.isLt _, ?_⟩
  rw [decodeAddress_offset, decodeAddress_set, decodeAddress_tag]
  ext i hi
  by_cases hoffset : i < 2
  · have hset : i < 6 := by omega
    simp [hoffset, hset, BitVec.getLsbD_eq_getElem hi]
  · by_cases hset : i < 6
    · have hadd : 2 + (i - 2) = i := by omega
      have hwidth : i - 2 < 4 := by omega
      simp [hoffset, hset, hadd, hwidth, BitVec.getLsbD_eq_getElem hi]
    · have hadd : 6 + (i - 6) = i := by omega
      have hwidth : i - 6 < 26 := by omega
      have hnot : ¬ i - 2 < 4 := by omega
      simp [hoffset, hset, hadd, hwidth, hnot, BitVec.getLsbD_eq_getElem hi]

/-- The next 64 bytes: the carry goes into the tag alone. -/
theorem decodeAddress_add_64 (a : Addr) :
    decodeAddress (a + 0x40#32)
      = { offset := (decodeAddress a).offset, set := (decodeAddress a).set, tag := (decodeAddress a).tag + 1#26 } := by
  have ha := a.isLt
  simp only [decodeAddress, AddrFields.mk.injEq]
  refine ⟨?_, ?_, ?_⟩ <;> apply BitVec.eq_of_toNat_eq <;>
    simp only [BitVec.extractLsb'_toNat, BitVec.toNat_add, BitVec.toNat_ofNat, Nat.shiftRight_eq_div_pow] <;> omega

/-- Bits [31:2], the block address, are the tag and the set (R24). -/
theorem block_eq_append (a : Addr) : a.extractLsb' 2 30 = a.extractLsb' 6 26 ++ a.extractLsb' 2 4 :=
  (BitVec.extractLsb'_append_extractLsb'_eq_extractLsb' (start₂ := 6) (start₁ := 2) (len₂ := 26) (len₁ := 4) rfl).symm

/-- Two addresses name one block exactly when their sets and tags agree. -/
theorem block_eq_iff (a b : Addr) :
    a.extractLsb' 2 30 = b.extractLsb' 2 30
      ↔ a.extractLsb' 2 4 = b.extractLsb' 2 4 ∧ a.extractLsb' 6 26 = b.extractLsb' 6 26 := by
  refine ⟨fun h => ⟨?_, ?_⟩, fun ⟨hset, htag⟩ => ?_⟩
  · have hlow := congrArg (fun x : BitVec 30 => x.extractLsb' 0 4) h
    simpa only [extract_extract _ 2 30 0 4 (by omega)] using hlow
  · have hhigh := congrArg (fun x : BitVec 30 => x.extractLsb' 4 26) h
    simpa only [extract_extract _ 2 30 4 26 (by omega)] using hhigh
  · rw [block_eq_append, block_eq_append, hset, htag]

/-- Settles O10: `decodeAddress_add_64`, and the block of an address by its set and tag (`block_eq_iff`). -/
theorem blocksSixtyFourBytesApartShareALine : Obligations.BlocksSixtyFourBytesApartShareALine :=
  ⟨decodeAddress_add_64, fun a b => (block_eq_iff a b).symm⟩

end Sys2Proof.Machine

/-! PROOF. An operation and the step that runs it (10_state.md R20, 20_memory.md R33). -/

namespace Sys2Proof.Machine

/-- What `exec` answers is the line array that the operation leaves. -/
theorem exec_eq_perform (i : Instr) (s : State) : exec i s = .next (s.withLines (perform i s.lines).1) := by
  cases i <;> rfl

/-! A step that takes a request -/

section Request

variable {s : State} {w : RequestWord} {rest : List Input}

theorem step_request {i : Instr} (hin : s.inputs = .request w :: rest) (hd : decode w = .ok i) :
    step s = exec i { s with inputs := rest } := by
  simp only [step, takeInput_cons hin, hd]

theorem stepResponse_request {i : Instr} (hin : s.inputs = .request w :: rest) (hd : decode w = .ok i) :
    stepResponse s = some (respond i { s with inputs := rest }) := by
  simp only [stepResponse, takeInput_cons hin, inputResponse, hd]

theorem step_reserved {e : DecodeError} (hin : s.inputs = .request w :: rest) (hd : decode w = .error e) :
    step s = .refused .reservedOp := by
  cases e
  simp only [step, takeInput_cons hin, hd]

theorem stepResponse_reserved {e : DecodeError} (hin : s.inputs = .request w :: rest) (hd : decode w = .error e) :
    stepResponse s = none := by
  cases e
  simp only [stepResponse, takeInput_cons hin, inputResponse, hd]

/-- The step with its return, by the operation on the line array. -/
theorem stepReturning_request {i : Instr} (hin : s.inputs = .request w :: rest) (hd : decode w = .ok i) :
    stepReturning s = .next ({ lines := (perform i s.lines).1, inputs := rest, draws := s.draws },
      some (perform i s.lines).2) := by
  have hstep := (step_request hin hd).trans (exec_eq_perform i _)
  rw [stepReturning_next hstep, stepResponse_request hin hd]
  rfl

end Request

/-- Settles O25: a step and what it returns, by the operation its request decodes to. -/
theorem stepRunsDecodedRequest : Obligations.StepRunsDecodedRequest := fun _ _ _ _ hin hd =>
  ⟨step_request hin hd, stepResponse_request hin hd⟩

theorem decode_tableWord {nbits w : Nat} {i : Instr} (h : decodeTableWord nbits w = some i) :
    decode (tableWord nbits w) = .ok i := by
  unfold decodeTableWord at h
  split at h <;> cases h
  assumption

/-- Settles O26: the placed word is the next request, and taking it off the port leaves the state as it was. -/
theorem placedWordRunsNext : Obligations.PlacedWordRunsNext := fun s _ _ _ h =>
  have hin := present_inputs s (.request (tableWord _ _))
  ⟨step_request hin (decode_tableWord h), stepResponse_request hin (decode_tableWord h)⟩

/-- Settles O42, from `stepReturning_request` and the decoder on an encoded operation. -/
theorem stepReturnsResponseAndKeepsLinesAlone : Obligations.StepReturnsResponseAndKeepsLinesAlone := fun _ i _ hin =>
  stepReturning_request hin (decodeEncodeRoundTrip i)

/-! Fields that a request ignores (30_encoding.md R39) -/

/-- WRITE uses the block of its address alone: addr[1:0] takes no part (20_memory.md R27). -/
theorem perform_write_congr {a b : Addr} (h : a.extractLsb' 2 30 = b.extractLsb' 2 30) (wdata : Word) (lines : LineArray) :
    perform (.write a wdata) lines = perform (.write b wdata) lines := by
  obtain ⟨hset, htag⟩ := (block_eq_iff a b).1 h
  simp only [perform, writeOp, decodeAddress_set, decodeAddress_tag, hset, htag]

/-- Words that decode to operations of the same effect on the line array give the same step. -/
theorem stepReturning_present_congr (s : State) {w w' : RequestWord} {i i' : Instr} (hd : decode w = .ok i)
    (hd' : decode w' = .ok i') (h : perform i s.lines = perform i' s.lines) :
    stepReturning (s.present (.request w)) = stepReturning (s.present (.request w')) := by
  rw [stepReturning_request (present_inputs s _) hd, stepReturning_request (present_inputs s _) hd', present_lines,
    present_lines, h, present_draws, present_draws]

/-- Settles O5: the words decode to one operation, or for WRITE to two of the same block (`perform_write_congr`). -/
theorem ignoredRequestFieldsDoNotMatter : Obligations.IgnoredRequestFieldsDoNotMatter := fun s addr addr' wdata wdata' =>
  ⟨stepReturning_present_congr s (decode_read addr wdata) (decode_read addr wdata') rfl,
    fun h => stepReturning_present_congr s (decode_write addr wdata) (decode_write addr' wdata)
      (perform_write_congr h wdata s.lines),
    stepReturning_present_congr s (decode_dump addr wdata) (decode_dump addr' wdata') rfl⟩

/-! Which steps are refused, and which change lines -/

/-- INVERSION OF A REFUSAL: the next input is a request with the reserved op, and that is the reason (R42). -/
theorem step_refused_cases {s : State} {why : Refusal} (h : step s = .refused why) :
    why = .reservedOp ∧ ∃ w rest, s.inputs = .request w :: rest ∧ opField w = 0b11#2 := by
  match hin : s.inputs with
  | [] =>
    rw [step_idle hin] at h
    cases h
  | .reset :: rest =>
    rw [step_reset hin] at h
    cases h
  | .request w :: rest =>
    cases hd : decode w with
    | ok i =>
      rw [step_request hin hd, exec_eq_perform] at h
      cases h
    | error e =>
      rw [step_reserved hin hd] at h
      cases h
      exact ⟨rfl, w, rest, rfl, (decode_eq_error_iff w e).1 hd⟩

/-- Settles O28: a refusal is of a reserved request (`step_refused_cases`), and such a request is refused without a
response. -/
theorem stepRefusesExactlyReservedRequests : Obligations.StepRefusesExactlyReservedRequests := by
  refine fun s why => ⟨⟨fun h => ?_, ?_⟩, fun h => ?_⟩
  · obtain ⟨hwhy, w, rest, hin, hop⟩ := step_refused_cases h
    refine ⟨hwhy, addrField w, wdataField w, ?_⟩
    rw [hin, List.head?_cons, ← hop, fields_append]
  · rintro ⟨rfl, addr, wdata, hhead⟩
    obtain ⟨rest, hin⟩ := List.head?_eq_some_iff.1 hhead
    exact step_reserved hin (decode_reserved addr wdata)
  · obtain ⟨-, w, rest, hin, hop⟩ := step_refused_cases h
    exact stepResponse_reserved hin ((decode_eq_error_iff w .reservedOp).2 hop)

/-- Settles O27: of the cases of a step, idling and the operations that are no WRITE leave the lines as they were. -/
theorem onlyWriteAndResetChangeLines : Obligations.OnlyWriteAndResetChangeLines := by
  refine ⟨fun s hin => ⟨step_idle hin, stepResponse_idle hin⟩, fun s t h hne => ?_⟩
  rcases step_cases h with ⟨-, rfl, -⟩ | ⟨rest, hin, -, -⟩ | ⟨w, rest, i, hin, hd, hexec, -⟩
  · exact absurd rfl hne
  · exact .inl (hin ▸ List.head?_cons)
  · rcases exec_cases i { s with inputs := rest } with hsame | ⟨addr, wdata, rfl, -⟩
    · cases hsame.symm.trans hexec
      exact absurd rfl hne
    · exact .inr ⟨w, addr, wdata, hin ▸ List.head?_cons, hd⟩

/-! Operations in sequence -/

/-- READ and DUMP answer the state they found (41_read.md R59, 43_dump.md R64). -/
theorem exec_of_not_write {i : Instr} (h : isWrite i = false) (s : State) : exec i s = .next s := by
  cases i with
  | read addr => exact exec_read addr s
  | write addr wdata => cases h
  | dump => exact exec_dump s

/-- Settles O13: the next state is the state found. -/
theorem readAndDumpFrame : Obligations.ReadAndDumpFrame := by
  intro i s t hi h
  cases (exec_of_not_write hi s).symm.trans h
  exact ⟨fun _ => rfl, fun _ => rfl, rfl, rfl⟩

theorem execAll_cons_next {i : Instr} {s t : State} (is : List Instr) (h : exec i s = .next t) :
    execAll (i :: is) s = execAll is t := by
  simp only [execAll, h]

/-- Settles O29, by induction on the operations: each that is no WRITE leaves the state it found. -/
theorem readsAndDumpsLeaveNothingBehind : Obligations.ReadsAndDumpsLeaveNothingBehind := by
  intro is
  induction is with
  | nil => exact fun s => rfl
  | cons i is ih =>
    intro s
    cases hi : isWrite i with
    | false => rw [execAll_cons_next is (exec_of_not_write hi s), ih, List.filter_cons_of_neg (by simp [hi])]
    | true =>
      rw [List.filter_cons_of_pos hi, execAll_cons_next _ (exec_eq_perform i s), execAll_cons_next _ (exec_eq_perform i s), ih]

theorem execAll_of_no_write {is : List Instr} (h : ∀ i ∈ is, isWrite i = false) (s : State) : execAll is s = .next s := by
  have hnone : is.filter isWrite = [] := List.filter_eq_nil_iff.2 fun i hi => by simp [h i hi]
  rw [readsAndDumpsLeaveNothingBehind, hnone]
  rfl

/-- Settles O21: DUMP answers the state it found, and so do the READs and DUMPs after it. -/
theorem dumpIsRestartable : Obligations.DumpIsRestartable := by
  intro s t h
  cases (exec_dump s).symm.trans h
  exact ⟨fun _ => ⟨rfl, rfl⟩, fun is his => ⟨s, execAll_of_no_write his s, exec_dump s, rfl⟩⟩

end Sys2Proof.Machine

/-! PROOF. READ and DUMP (41_read.md, 43_dump.md). -/

namespace Sys2Proof.Machine

/-- READ's response to an address given by its fields. -/
theorem respond_read_append (tag : Tag) (set : SetIndex) (offset : Offset) (s : State) :
    respond (.read (tag ++ set ++ offset)) s = .read (readResponse (s.line set) { offset, set, tag }) := by
  rw [respond_read, set_append, decodeAddress_append]

/-- Settles O12: READ leaves the state, and its response is the one of the class of the line. -/
theorem readRespondsByLineState : Obligations.ReadRespondsByLineState := by
  intro s tag set offset
  refine ⟨fun wdata => decode_read _ wdata, exec_read _ s, fun hv => ?_, fun hv ht => ?_, fun hv ht => ?_⟩ <;>
    rw [respond_read_append]
  · rw [readResponse_cold _ hv]
  · rw [readResponse_conflict hv ht]
    rfl
  · rw [readResponse_hit hv ht]
    rfl

/-- DUMP's 5-bit count is the number of its entries: there are at most 16 (R47). -/
theorem validViews_count (a : LineArray) : (BitVec.ofNat 5 (validViews a).length).toNat = (validViews a).length := by
  have hle := validViews_length_le a
  rw [BitVec.toNat_ofNat, Nat.mod_eq_of_lt (by omega)]

/-- Settles O20: the entries are the valid views, in order (`validViews_pairwise`) and complete (`mem_validViews`). -/
theorem dumpListsValidLines : Obligations.DumpListsValidLines := by
  refine fun s => ⟨decode_dump, exec_dump s, _, respond_dump s, validViews_count s.lines, ?_, fun v => ?_⟩
  · exact (validViews_pairwise s.lines).imp BitVec.lt_def.1
  · refine mem_validViews.trans (and_congr_right fun hvalid => ⟨fun h => ?_, fun ⟨hv, htag, hdata⟩ => ?_⟩)
    · rw [h]
      exact ⟨hvalid, rfl, rfl⟩
    · cases v
      simp only [viewAt, LineView.mk.injEq]
      exact ⟨trivial, htag, hv.trans hvalid.symm, hdata⟩

/-! After RESET (70_reset_and_hazards.md section 1) -/

theorem allInvalid_reset : AllInvalid State.reset := fun set => by
  rw [reset_line, resetLine_valid]

theorem allInvalid_applyReset (s : State) : AllInvalid (applyReset s) := fun set => by
  rw [applyReset_line, resetLine_valid]

/-- Settles O23: the step is `applyReset`, whose lines are those of the draw. -/
theorem resetStepDrawsContents : Obligations.ResetStepDrawsContents := by
  refine fun s rest hin => ⟨stepResponse_reset hin, _, step_reset hin, applyReset_inputs _, applyReset_draws _, fun set => ?_⟩
  rw [applyReset_line]
  exact ⟨resetLine_valid _ set, resetLine_tag _ set, resetLine_byte _ set⟩

/-- DUMP lists nothing of a cache without valid lines. -/
theorem validViews_of_allInvalid {s : State} (h : AllInvalid s) : validViews s.lines = [] := by
  refine List.eq_nil_iff_forall_not_mem.2 fun v hv => ?_
  have hvalid : (s.line v.set).valid = true := (mem_validViews.1 hv).1
  exact Bool.false_ne_true ((h v.set).symm.trans hvalid)

/-- Settles O24: after RESET every line is invalid, so DUMP finds nothing and every READ is cold. -/
theorem freshCacheIsCold : Obligations.FreshCacheIsCold := by
  intro t ht
  have hcold : AllInvalid t := by
    rcases ht with rfl | ⟨s, hhead, hstep⟩
    · exact allInvalid_reset
    · obtain ⟨rest, hin⟩ := List.head?_eq_some_iff.1 hhead
      cases (step_reset hin).symm.trans hstep
      exact allInvalid_applyReset _
  refine ⟨exec_dump t, ?_, fun addr => ⟨_, exec_read addr t, respond_read addr t, ?_⟩⟩
  · rw [respond_dump, validViews_of_allInvalid hcold]
    rfl
  · rw [readResponse_cold _ (hcold _)]
    exact ⟨rfl, rfl, rfl, rfl, rfl⟩

end Sys2Proof.Machine

/-! PROOF. WRITE (42_write.md): the state it leaves, and what later operations find there. -/

namespace Sys2Proof.Machine

/-! The line WRITE writes (R60, R63) -/

@[simp] theorem writtenLine_valid (tag : Tag) (wdata : Word) : (writtenLine tag wdata).valid = true := rfl
@[simp] theorem writtenLine_tag (tag : Tag) (wdata : Word) : (writtenLine tag wdata).tag = tag := rfl
@[simp] theorem writtenLine_data (tag : Tag) (wdata : Word) : (writtenLine tag wdata).data = lanes wdata := rfl

/-! The state WRITE leaves -/

/-- The state after a WRITE (R60). -/
def State.afterWrite (s : State) (addr : Addr) (wdata : Word) : State :=
  s.withLines (putLine s.lines (addr.extractLsb' 2 4) (writtenLine (addr.extractLsb' 6 26) wdata))

section AfterWrite

variable (s : State) (addr : Addr) (wdata : Word)

theorem exec_write_eq : exec (.write addr wdata) s = .next (s.afterWrite addr wdata) := rfl

@[simp] theorem afterWrite_inputs : (s.afterWrite addr wdata).inputs = s.inputs := rfl
@[simp] theorem afterWrite_draws : (s.afterWrite addr wdata).draws = s.draws := rfl

theorem afterWrite_line_same {set : SetIndex} (h : set = addr.extractLsb' 2 4) :
    (s.afterWrite addr wdata).line set = writtenLine (addr.extractLsb' 6 26) wdata := by
  rw [h]
  exact lineAt_putLine_same _ _ _

theorem afterWrite_line_other {set : SetIndex} (h : set ≠ addr.extractLsb' 2 4) :
    (s.afterWrite addr wdata).line set = s.line set :=
  lineAt_putLine_other _ _ h

theorem afterWrite_afterWrite : (s.afterWrite addr wdata).afterWrite addr wdata = s.afterWrite addr wdata :=
  congrArg s.withLines (putLine_putLine _ _ _ _)

/-- Addresses of one block are written alike (20_memory.md R27). -/
theorem afterWrite_congr {addr' : Addr} (h : addr'.extractLsb' 2 30 = addr.extractLsb' 2 30) :
    s.afterWrite addr' wdata = s.afterWrite addr wdata := by
  obtain ⟨hset, htag⟩ := (block_eq_iff addr' addr).1 h
  simp only [State.afterWrite, hset, htag]

end AfterWrite

/-! Cached bytes (20_memory.md R24) -/

theorem writtenLine_heldByte (tag : Tag) (wdata : Word) (k : Offset) :
    (writtenLine tag wdata).heldByte tag k = some (wdata.extractLsb' (8 * k.toNat) 8) := by
  rw [Line.heldByte, if_pos ⟨rfl, rfl⟩, writtenLine_byte]

theorem heldByte_of_tag_ne {l : Line} {tag : Tag} (h : tag ≠ l.tag) (k : Offset) : l.heldByte tag k = none :=
  if_neg fun hheld => h hheld.2.symm

section Cached

variable (s : State) {addr b : Addr} (wdata : Word)

theorem afterWrite_cachedByte_otherSet (h : b.extractLsb' 2 4 ≠ addr.extractLsb' 2 4) :
    (s.afterWrite addr wdata).cachedByte b = s.cachedByte b := by
  rw [State.cachedByte, State.cachedByte, afterWrite_line_other s addr wdata h]

theorem afterWrite_cachedByte_otherTag (hset : b.extractLsb' 2 4 = addr.extractLsb' 2 4)
    (htag : b.extractLsb' 6 26 ≠ addr.extractLsb' 6 26) : (s.afterWrite addr wdata).cachedByte b = none := by
  rw [State.cachedByte, afterWrite_line_same s addr wdata hset, heldByte_of_tag_ne htag]

theorem afterWrite_cachedByte_block (h : b.extractLsb' 2 30 = addr.extractLsb' 2 30) :
    (s.afterWrite addr wdata).cachedByte b = some (wdata.extractLsb' (8 * (b.extractLsb' 0 2).toNat) 8) := by
  obtain ⟨hset, htag⟩ := (block_eq_iff b addr).1 h
  rw [State.cachedByte, afterWrite_line_same s addr wdata hset, htag, writtenLine_heldByte]

end Cached

/-- Settles O15: `State.afterWrite`, line by line and address by address. -/
theorem writeFrame : Obligations.WriteFrame := fun s addr wdata =>
  ⟨s.afterWrite addr wdata, exec_write_eq s addr wdata, afterWrite_line_same s addr wdata rfl,
    fun _ => afterWrite_line_other s addr wdata, fun _ => afterWrite_cachedByte_otherSet s wdata,
    fun _ => afterWrite_cachedByte_otherTag s wdata, fun _ => afterWrite_cachedByte_block s wdata,
    afterWrite_inputs s addr wdata, afterWrite_draws s addr wdata⟩

/-! The offset is ignored (20_memory.md R27) -/

/-- An aligned address plus an offset is the byte at that offset of the same block. -/
theorem aligned_add {a : Addr} (h : a.extractLsb' 0 2 = 0#2) (k : Offset) :
    (a + k.setWidth 32).extractLsb' 2 30 = a.extractLsb' 2 30 ∧ (a + k.setWidth 32).extractLsb' 0 2 = k := by
  have haligned := congrArg BitVec.toNat h
  have ha := a.isLt
  have hk := k.isLt
  simp only [BitVec.extractLsb'_toNat, BitVec.toNat_ofNat, Nat.shiftRight_zero] at haligned
  refine ⟨?_, ?_⟩ <;> apply BitVec.eq_of_toNat_eq <;>
    simp only [BitVec.extractLsb'_toNat, BitVec.toNat_add, BitVec.toNat_setWidth, Nat.shiftRight_eq_div_pow] <;> omega

theorem afterWrite_cachedByte_add (s : State) {a : Addr} (h : a.extractLsb' 0 2 = 0#2) (wdata : Word) (k : Offset) :
    (s.afterWrite a wdata).cachedByte (a + k.setWidth 32) = some (wdata.extractLsb' (8 * k.toNat) 8) := by
  obtain ⟨hblock, hoffset⟩ := aligned_add h k
  rw [afterWrite_cachedByte_block s wdata hblock, hoffset]

/-- Settles O16: `a + k` is of the block of `a` (`aligned_add`), which is all that WRITE uses of an address. -/
theorem writeIgnoresOffset : Obligations.WriteIgnoresOffset := by
  intro s a k wdata h
  obtain ⟨hblock, -⟩ := aligned_add h k
  refine ⟨s.afterWrite a wdata, exec_write_eq s a wdata, ?_, ?_, ?_, afterWrite_cachedByte_add s h wdata 1#2,
    afterWrite_cachedByte_add s h wdata 2#2, afterWrite_cachedByte_add s h wdata 3#2⟩
  · rw [exec_write_eq, afterWrite_congr s a wdata hblock]
  · rw [respond, respond, perform_write_congr hblock]
  · rw [afterWrite_cachedByte_block s wdata rfl, h]
    rfl

/-! What WRITE returns -/

/-- Settles O14: the line is the written one, and the response is the one of the class of the old line. -/
theorem writeRespondsByLineState : Obligations.WriteRespondsByLineState := by
  intro s tag set offset wdata data old
  have hset := set_append tag set offset
  have htag := tag_append tag set offset
  refine ⟨decode_write _ wdata, s.afterWrite (tag ++ set ++ offset) wdata, writeResponse old set tag wdata,
    exec_write_eq s _ wdata, ?_, ?_, rfl, fun hv => ?_, fun hv ht => ?_, fun hv ht => ?_⟩
  · rw [afterWrite_line_same s _ wdata hset.symm, htag]
    rfl
  · rw [respond_write, hset, htag]
  · rw [writeResponse_fill set tag wdata hv]
    exact ⟨rfl, rfl, rfl⟩
  · rw [writeResponse_update set wdata hv ht]
    exact ⟨rfl, rfl, rfl⟩
  · rw [writeResponse_evict set wdata hv ht]
    exact ⟨rfl, rfl, rfl⟩

/-- Settles O17: the repeated WRITE finds the line it writes (`afterWrite_afterWrite`), with its own tag. -/
theorem repeatedWriteReportsUpdate : Obligations.RepeatedWriteReportsUpdate := by
  intro s t addr wdata h
  cases (exec_write_eq s addr wdata).symm.trans h
  refine ⟨?_, _, respond_write addr wdata _, ?_⟩
  · rw [exec_write_eq, afterWrite_afterWrite]
  · rw [afterWrite_line_same s addr wdata rfl, writeResponse_update _ wdata (writtenLine_valid _ _) (writtenLine_tag _ _)]
    exact ⟨rfl, rfl, rfl⟩

/-- A byte of a word as the source writes it, by shift and mask (95_test_vectors.md section 1.3). -/
theorem byte_eq_shift_mask (wdata : Word) (n : Nat) :
    wdata.extractLsb' n 8 = ((wdata >>> n) &&& 0xFF#32).setWidth 8 := by
  have hmask := congrArg (BitVec.setWidth 8) (setWidth_extract wdata n 8)
  rwa [BitVec.setWidth_setWidth_of_le _ (by decide), BitVec.setWidth_eq] at hmask

/-- Settles O18: the READ finds the written line with its own tag. -/
theorem writeThenReadHits : Obligations.WriteThenReadHits := by
  intro s a b wdata h
  obtain ⟨hset, htag⟩ := (block_eq_iff a b).1 h
  refine ⟨s.afterWrite a wdata, _, exec_write_eq s a wdata, exec_read b _, respond_read b _, ?_⟩
  rw [afterWrite_line_same s a wdata hset.symm, readResponse_hit rfl htag]
  refine ⟨rfl, congrArg some ?_⟩
  rw [writtenLine_byte, byte_eq_shift_mask, decodeAddress_offset]

/-- Settles O19: the second WRITE finds the line of the first, and the READ the line of the second. -/
theorem secondWriteSeesFirst : Obligations.SecondWriteSeesFirst := by
  intro s a b v w hset
  refine ⟨s.afterWrite a v, (s.afterWrite a v).afterWrite b w, _, exec_write_eq s a v, exec_write_eq _ b w,
    respond_write b w _, fun htag => ?_, fun htag => ?_⟩ <;>
    rw [afterWrite_line_same s a v hset.symm]
  · rw [writeResponse_update _ w rfl htag]
    exact ⟨rfl, rfl⟩
  · rw [writeResponse_evict _ w rfl htag, ← hset]
    refine ⟨rfl, rfl, rfl, _, exec_read a _, respond_read a _, ?_⟩
    rw [afterWrite_line_same _ b w hset, readResponse_conflict rfl htag.symm]
    exact ⟨rfl, rfl, rfl⟩

end Sys2Proof.Machine

/-! PROOF. Safe runs: no reserved request is pending, so every step completes (60_exceptions.md R74, R75), and what it
returns agrees with the lines it leaves (30_encoding.md section 4). -/

namespace Sys2Proof.Machine

/-! Steps complete -/

/-- With only operations pending no step is refused, and there is no fault (R74). -/
theorem OnlyOperations.step_next {s : State} (h : OnlyOperations s) : ∃ t, step s = .next t := by
  cases hstep : step s with
  | next t => exact ⟨t, rfl⟩
  | fault r => cases r
  | refused why =>
    obtain ⟨-, w, rest, hin, hop⟩ := step_refused_cases hstep
    obtain ⟨i, hi⟩ := (requestWellFormed_iff w).1 (h w (hin ▸ List.mem_cons_self))
    cases ((decode_eq_error_iff w .reservedOp).2 hop).symm.trans hi

/-- What is pending after a step was pending before it. -/
theorem OnlyOperations.of_step {s t : State} (h : OnlyOperations s) (hstep : step s = .next t) : OnlyOperations t := by
  intro w hw
  rw [step_inputs hstep] at hw
  exact h w (List.mem_of_mem_tail hw)

/-- Settles O35, by induction on the number of steps. -/
theorem operationsNeverStop : Obligations.OperationsNeverStop := by
  intro n
  induction n with
  | zero => exact fun s _ => ⟨s, runSteps_zero s⟩
  | succ n ih =>
    intro s h
    obtain ⟨t, hstep⟩ := h.step_next
    rw [runSteps_succ_next n hstep]
    exact ih t (h.of_step hstep)

/-- Settles O34: an encoded operation decodes, so a requester may issue it; the lines are those of draw 0. -/
theorem resetMeetsInvariant : Obligations.ResetMeetsInvariant := by
  refine fun is => ⟨fun w hw => ?_, allInvalid_reset⟩
  obtain ⟨i, -, hi⟩ := List.mem_map.1 hw
  cases hi
  exact (requestWellFormed_iff _).2 ⟨i, decodeEncodeRoundTrip i⟩

/-! Responses agree with the lines -/

theorem lookup_eq_missCold_iff (l : Line) (t : Tag) : lookup l t = .missCold ↔ l.valid = false := by
  rcases lookup_cases l t with ⟨hv, hl⟩ | ⟨hv, -, hl⟩ | ⟨hv, -, hl⟩ <;> simp [hv, hl]

theorem lookup_eq_hit_iff (l : Line) (t : Tag) : lookup l t = .hit ↔ l.valid = true ∧ l.tag = t := by
  rcases lookup_cases l t with ⟨hv, hl⟩ | ⟨hv, ht, hl⟩ | ⟨hv, ht, hl⟩ <;> simp [*]

theorem readResponse_coherent (s : State) (f : AddrFields) : (readResponse (s.line f.set) f).Coherent s :=
  ⟨rfl, rfl, rfl, lookup_eq_missCold_iff _ _, lookup_eq_hit_iff _ _, rfl⟩

/-- The line as written, and the line evicted, by the class of the old line (R61, R62). -/
theorem writeResponse_coherent (s : State) (addr : Addr) (wdata : Word) :
    WriteResponse.Coherent (s.afterWrite addr wdata)
      (writeResponse (s.line (addr.extractLsb' 2 4)) (addr.extractLsb' 2 4) (addr.extractLsb' 6 26) wdata) := by
  have hview : (s.afterWrite addr wdata).view (addr.extractLsb' 2 4)
      = { set := addr.extractLsb' 2 4, tag := addr.extractLsb' 6 26, valid := true, data := lanes wdata } := by
    have hline : lineAt (s.afterWrite addr wdata).lines _ = _ := afterWrite_line_same s addr wdata rfl
    rw [State.view, viewAt, hline]
    rfl
  refine ⟨rfl, hview.symm, beq_iff_eq, ?_⟩
  rcases lookup_cases (s.line (addr.extractLsb' 2 4)) (addr.extractLsb' 6 26) with ⟨hv, -⟩ | ⟨hv, ht, -⟩ | ⟨hv, ht, -⟩
  · rw [writeResponse_fill _ _ wdata hv]
    exact ⟨rfl, fun v h => nomatch h⟩
  · rw [writeResponse_evict _ wdata hv ht]
    refine ⟨rfl, fun v h => ?_⟩
    cases h
    exact ⟨rfl, rfl, ht⟩
  · rw [writeResponse_update _ wdata hv ht]
    exact ⟨rfl, fun v h => nomatch h⟩

/-- DUMP's list is that of the valid lines (R64). -/
theorem dumpResponse_coherent (s : State) :
    DumpResponse.Coherent s
      { count := BitVec.ofNat 5 (validViews s.lines).length, entries := validViews s.lines } := by
  refine ⟨validViews_count s.lines, validViews_pairwise s.lines, fun v => mem_validViews.trans ?_⟩
  refine and_congr_left fun (hv : v = viewAt s.lines v.set) => ?_
  rw [show v.valid = (lineAt s.lines v.set).valid from congrArg LineView.valid hv]

/-- Every operation returns a response that agrees with the lines it leaves. -/
theorem respond_coherent {i : Instr} {s t : State} (h : exec i s = .next t) : (respond i s).Coherent t := by
  cases i with
  | read addr =>
    cases (exec_read addr s).symm.trans h
    exact readResponse_coherent s (decodeAddress addr)
  | write addr wdata =>
    cases (exec_write_eq s addr wdata).symm.trans h
    exact writeResponse_coherent s addr wdata
  | dump =>
    cases (exec_dump s).symm.trans h
    exact dumpResponse_coherent s

/-- Settles O33: the step completes, keeps the invariant, and returns the response of an operation if any
(`respond_coherent`). -/
theorem safeStepKeepsResponseTruthful : Obligations.SafeStepKeepsResponseTruthful := by
  intro s h
  obtain ⟨t, hstep⟩ := h.step_next
  refine ⟨t, hstep, h.of_step hstep, fun r hr => ?_⟩
  rcases step_cases hstep with ⟨-, -, hnone⟩ | ⟨rest, -, -, hnone⟩ | ⟨w, rest, i, -, -, hexec, hsome⟩
  · cases hnone.symm.trans hr
  · cases hnone.symm.trans hr
  · cases hsome.symm.trans hr
    exact respond_coherent (s := { s with inputs := rest }) hexec

end Sys2Proof.Machine

/-! PROOF. Steps follow the line-state machine's table (44_line_state_machine.md R67 to R73). -/

namespace Sys2Proof.Machine

/-! The table and the state of a line -/

theorem line_state_of_valid {l : Line} (h : l.valid = true) : l.state = .valid l.tag := by
  simp [Line.state, h]

@[simp] theorem lineState_next_read (st : LineState) : st.next .read = st := by cases st <;> rfl
@[simp] theorem lineState_next_dump (st : LineState) : st.next .dump = st := by cases st <;> rfl
@[simp] theorem lineState_next_reset (st : LineState) : st.next .reset = .invalid := by cases st <;> rfl

/-- Whatever the line was, a WRITE makes it `Valid` of its tag (R69). -/
@[simp] theorem lineState_next_write (st : LineState) (t : Tag) : st.next (.write t) = .valid t := by
  cases st with
  | invalid => rfl
  | valid t' =>
    rw [LineState.next]
    split
    · next h => rw [h]
    · rfl

/-! What an input does at a line -/

section Event

variable {s : State} {rest : List Input} (set : SetIndex)

theorem nextLineEvent_idle (h : s.inputs = []) : nextLineEvent s set = none := by
  simp only [nextLineEvent, h, List.head?_nil, Option.bind_none]

theorem nextLineEvent_cons {input : Input} (h : s.inputs = input :: rest) :
    nextLineEvent s set = lineEvent set input := by
  simp only [nextLineEvent, h, List.head?_cons, Option.bind_some]

/-- What an operation does at a line: a WRITE to another set does nothing there. -/
def instrEvent : Instr → Option LineEvent
  | .read _ => some .read
  | .write addr _ => if addr.extractLsb' 2 4 = set then some (.write (addr.extractLsb' 6 26)) else none
  | .dump => some .dump

/-- What a request does at a line is what the operation it decodes to does. -/
theorem lineEvent_request {w : RequestWord} {i : Instr} (hd : decode w = .ok i) :
    lineEvent set (.request w) = instrEvent set i := by
  cases i <;> simp only [lineEvent, hd, instrEvent]

end Event

/-- An operation moves every line as the table says. -/
theorem exec_follows_table {i : Instr} {s t : State} (h : exec i s = .next t) (set : SetIndex) :
    (t.line set).state = (s.line set).state.after (instrEvent set i) := by
  cases i with
  | read addr =>
    cases (exec_read addr s).symm.trans h
    exact (lineState_next_read _).symm
  | dump =>
    cases (exec_dump s).symm.trans h
    exact (lineState_next_dump _).symm
  | write addr wdata =>
    cases (exec_write_eq s addr wdata).symm.trans h
    by_cases hset : set = addr.extractLsb' 2 4
    · rw [afterWrite_line_same s addr wdata hset, instrEvent, if_pos hset.symm, line_state_of_valid (writtenLine_valid _ _),
        writtenLine_tag]
      exact (lineState_next_write _ _).symm
    · rw [afterWrite_line_other s addr wdata hset, instrEvent, if_neg (Ne.symm hset)]
      rfl

/-- Every step moves every line as the table says. -/
theorem step_follows_table {s t : State} (h : step s = .next t) (set : SetIndex) :
    (t.line set).state = (s.line set).state.after (nextLineEvent s set) := by
  rcases step_cases h with ⟨hin, rfl, -⟩ | ⟨rest, hin, rfl, -⟩ | ⟨w, rest, i, hin, hd, hexec, -⟩
  · rw [nextLineEvent_idle set hin]
    rfl
  · rw [nextLineEvent_cons set hin, applyReset_line, resetLine_state]
    exact (lineState_next_reset _).symm
  · rw [nextLineEvent_cons set hin, lineEvent_request set hd]
    exact exec_follows_table hexec set

/-- WRITE's kind, eviction bit and snapshot are the table's for the old line (R69, R72). -/
theorem writeResponse_follows_table (old : Line) (set : SetIndex) (tag : Tag) (wdata : Word) :
    (writeResponse old set tag wdata).kind = old.state.writeKind tag
      ∧ (writeResponse old set tag wdata).evicted = old.state.evicts (.write tag)
      ∧ (writeResponse old set tag wdata).snapshot
        = if (writeResponse old set tag wdata).evicted then
            some { set, tag := old.tag, valid := old.valid, data := old.data } else none := by
  rcases lookup_cases old tag with ⟨hv, -⟩ | ⟨hv, ht, -⟩ | ⟨hv, ht, -⟩
  · rw [writeResponse_fill set tag wdata hv, (line_state_eq_invalid_iff _).2 hv]
    exact ⟨rfl, rfl, rfl⟩
  · rw [writeResponse_evict set wdata hv ht, line_state_of_valid hv]
    simp [LineState.writeKind, LineState.evicts, hv, ht]
  · rw [writeResponse_update set wdata hv ht, line_state_of_valid hv]
    simp [LineState.writeKind, LineState.evicts, ht]

/-- Settles O30: the lines by `step_follows_table`; for a WRITE, the frame of `State.afterWrite` and the response by
`writeResponse_follows_table`. -/
theorem stepsFollowLineStateMachine : Obligations.StepsFollowLineStateMachine := by
  refine fun s t h => ⟨step_follows_table h, fun w addr wdata hhead hd => ?_⟩
  obtain ⟨rest, hin⟩ := List.head?_eq_some_iff.1 hhead
  have hstep := (step_request hin hd).trans (exec_write_eq { s with inputs := rest } addr wdata)
  cases hstep.symm.trans h
  refine ⟨fun set => afterWrite_line_other _ addr wdata, ?_, _, stepResponse_request hin hd,
    writeResponse_follows_table _ _ _ wdata⟩
  rw [afterWrite_line_same _ addr wdata rfl, writtenLine_data]

end Sys2Proof.Machine

/-! PROOF. What a sequence of operations leaves and answers, from what it has written (43_dump.md R66, 20_memory.md
section 4). -/

namespace Sys2Proof.Machine

/-! Running presented operations -/

/-- A run that presents operations performs them in order, and leaves on the port what comes after them (R33). -/
theorem runSteps_requests (is : List Instr) (rest : List Input) :
    ∀ s : State, s.inputs = requests is ++ rest →
      runSteps is.length s = execAll is { s with inputs := rest } := by
  induction is with
  | nil =>
    rintro s rfl
    rfl
  | cons i is ih =>
    intro s hin
    have hstep := (step_request hin (decodeEncodeRoundTrip i)).trans (exec_eq_perform i _)
    rw [List.length_cons, runSteps_succ_next _ hstep, ih _ rfl, execAll_cons_next is (exec_eq_perform i _)]
    rfl

/-- A run with one more step at its end. -/
theorem runSteps_succ_last {t u : State} (hlast : step t = .next u) :
    ∀ (n : Nat) (s : State), runSteps n s = .next t →
      runSteps (n + 1) s = .next u ∧ responses (n + 1) s = responses n s ++ (stepResponse t).toList := by
  intro n
  induction n with
  | zero =>
    intro s h
    cases h
    rw [runSteps_succ_next 0 hlast, responses_succ_next 0 hlast]
    exact ⟨rfl, List.append_nil _⟩
  | succ n ih =>
    intro s h
    cases hstep : step s with
    | next v =>
      rw [runSteps_succ_next n hstep] at h
      obtain ⟨hrun, hresponses⟩ := ih v h
      rw [runSteps_succ_next _ hstep, responses_succ_next _ hstep, responses_succ_next _ hstep, hresponses,
        List.append_assoc]
      exact ⟨hrun, rfl⟩
    | fault r => cases r
    | refused r =>
      rw [runSteps_succ_refused n hstep] at h
      cases h

/-! Lines from the history -/

/-- What an operation, or a sequence of them, that last wrote `x` to a line leaves there: the written line, or the old one
if it wrote none. -/
def lineAfter (x : Option (Tag × Word)) (old : Line) : Line :=
  (x.map fun x => writtenLine x.1 x.2).getD old

@[simp] theorem lineAfter_none (old : Line) : lineAfter none old = old := rfl

@[simp] theorem lineAfter_some (tag : Tag) (wdata : Word) (old : Line) :
    lineAfter (some (tag, wdata)) old = writtenLine tag wdata := rfl

theorem lineAfter_or (x y : Option (Tag × Word)) (old : Line) :
    lineAfter (x.or y) old = lineAfter x (lineAfter y old) := by
  cases x <;> rfl

/-- An operation leaves at every line what it writes there. -/
theorem exec_line {i : Instr} {s t : State} (h : exec i s = .next t) (set : SetIndex) :
    t.line set = lineAfter (writeTo set i) (s.line set) := by
  cases i with
  | read addr =>
    cases (exec_read addr s).symm.trans h
    rfl
  | dump =>
    cases (exec_dump s).symm.trans h
    rfl
  | write addr wdata =>
    cases (exec_write_eq s addr wdata).symm.trans h
    by_cases hset : set = addr.extractLsb' 2 4
    · rw [afterWrite_line_same s addr wdata hset, writeTo, if_pos hset.symm]
      rfl
    · rw [afterWrite_line_other s addr wdata hset, writeTo, if_neg (Ne.symm hset)]
      rfl

/-- A sequence of operations completes, takes nothing from the port, and leaves at every line its most recent write. -/
theorem execAll_lines (is : List Instr) :
    ∀ s : State, ∃ t, execAll is s = .next t ∧ t.inputs = s.inputs
      ∧ ∀ set, t.line set = lineAfter (lastWrite set is) (s.line set) := by
  induction is with
  | nil => exact fun s => ⟨s, rfl, rfl, fun _ => rfl⟩
  | cons i is ih =>
    intro s
    have hexec := exec_eq_perform i s
    obtain ⟨t, hall, hinputs, hlines⟩ := ih (s.withLines (perform i s.lines).1)
    refine ⟨t, (execAll_cons_next is hexec).trans hall, hinputs, fun set => ?_⟩
    rw [hlines, exec_line hexec, lastWrite, lineAfter_or]

/-- Presenting operations and then `i`: `i` runs last, on a state whose every line holds its most recent write, and its
response is returned last. -/
theorem run_requests_last {s : State} {is : List Instr} {i : Instr} (hin : s.inputs = requests (is ++ [i])) :
    ∃ t u : State, (∀ set, t.line set = lineAfter (lastWrite set is) (s.line set))
      ∧ runSteps (is.length + 1) s = .next u
      ∧ responses (is.length + 1) s = responses is.length s ++ [respond i t] := by
  have hsplit : s.inputs = requests is ++ [.request (encode i)] := by rw [hin, requests, List.map_append]; rfl
  obtain ⟨t, hall, hinputs, hlines⟩ := execAll_lines is { s with inputs := [.request (encode i)] }
  have hd := decodeEncodeRoundTrip i
  have hstep := (step_request hinputs hd).trans (exec_eq_perform i _)
  obtain ⟨hrun, hresponses⟩ := runSteps_succ_last hstep is.length s ((runSteps_requests is _ s hsplit).trans hall)
  refine ⟨t, _, hlines, hrun, ?_⟩
  rw [hresponses, stepResponse_request hinputs hd]
  rfl

/-! READ and DUMP after the history -/

/-- The byte READ shows of a written line is the one of the word at its offset (R25). -/
theorem writtenLine_byte_decodeAddress (tag : Tag) (wdata : Word) (b : Addr) :
    (writtenLine tag wdata).byte (decodeAddress b).offset
      = wdata.extractLsb' (8 * (b.extractLsb' 0 2).toNat) 8 := by
  rw [writtenLine_byte, decodeAddress_offset]

/-- Settles O36: the READ runs on the line of the most recent WRITE to its set, or on one still invalid. -/
theorem readAnswersFromWriteHistory : Obligations.ReadAnswersFromWriteHistory := by
  intro s is b hcold hin
  obtain ⟨t, u, hlines, hrun, hresponses⟩ := run_requests_last hin
  refine ⟨u, readResponse (t.line (b.extractLsb' 2 4)) (decodeAddress b), hrun, hresponses, rfl, rfl, rfl, ?_⟩
  rw [hlines]
  cases lastWrite (b.extractLsb' 2 4) is with
  | none =>
    rw [lineAfter_none, readResponse_cold _ (hcold _)]
    exact ⟨rfl, rfl, rfl, rfl, rfl⟩
  | some x =>
    obtain ⟨tag, wdata⟩ := x
    rw [lineAfter_some]
    have hbyte := congrArg some (writtenLine_byte_decodeAddress tag wdata b)
    by_cases htag : tag = b.extractLsb' 6 26
    · rw [readResponse_hit (f := decodeAddress b) (writtenLine_valid tag wdata) htag]
      refine ⟨rfl, congrArg some htag.symm, hbyte, ?_⟩
      rw [if_pos htag]
      exact ⟨rfl, rfl⟩
    · rw [readResponse_conflict (f := decodeAddress b) (writtenLine_valid tag wdata) htag]
      refine ⟨rfl, rfl, hbyte, ?_⟩
      rw [if_neg htag]
      exact ⟨rfl, rfl⟩

/-- What DUMP shows of a line that was invalid before a sequence of operations is what the history lists for it. -/
theorem view_lineAfter (x : Option (Tag × Word)) {old : Line} (hcold : old.valid = false) (a : LineArray) (set : SetIndex)
    (h : lineAt a set = lineAfter x old) :
    (if (lineAt a set).valid then some (viewAt a set) else none)
      = x.map fun x => { set := set, tag := x.1, valid := true, data := lanes x.2 } := by
  cases x with
  | none =>
    have hv : (lineAt a set).valid = false := h ▸ hcold
    simp [hv]
  | some x =>
    rw [viewAt, h]
    rfl

/-- Settles O37: the valid views of the lines that the operations leave are those of the history, set by set. -/
theorem dumpListsWriteHistory : Obligations.DumpListsWriteHistory := by
  intro s is hcold hin
  obtain ⟨t, u, hlines, hrun, hresponses⟩ := run_requests_last hin
  have hviews : validViews t.lines = historyViews is :=
    List.filterMap_congr fun set _ => view_lineAfter _ (hcold set) t.lines set (hlines set)
  refine ⟨u, _, hrun, hresponses, hviews, ?_⟩
  rw [← hviews]
  exact validViews_count t.lines

end Sys2Proof.Machine

/-! PROOF. Response bits (30_encoding.md R44 to R47): each field lies at its bits, and the fields, each under its presence
condition, give the response back. A field of a packed concatenation is found by passing over the fields below it
(`extract_append_high`), then cutting off those above it. -/

namespace Sys2Proof.Machine

/-! Blocks -/

theorem unpackBlock_packBlock (d : Block) : unpackBlock (packBlock d) = d := by
  apply Vector.ext
  intro i hi
  match i, hi with
  | 0, _ => exact BitVec.extractLsb'_append_eq_right
  | 1, _ =>
    exact (extract_append_high _ _ 8 8 (by decide)).trans BitVec.extractLsb'_append_eq_right
  | 2, _ =>
    exact ((extract_append_high _ _ 16 8 (by decide)).trans (extract_append_high _ _ 8 8 (by decide))).trans
      BitVec.extractLsb'_append_eq_right
  | 3, _ =>
    exact ((extract_append_high _ _ 24 8 (by decide)).trans (extract_append_high _ _ 16 8 (by decide))).trans
      BitVec.extractLsb'_append_eq_left

/-- Byte `k` of a packed block is at bits [8k+7:8k]: those are the lanes that unpacking takes (R46, R47). -/
theorem packBlock_byte (d : Block) (k : Offset) : (packBlock d).extractLsb' (8 * k.toNat) 8 = d[k.toNat]'k.isLt := by
  have hlanes : lanes (packBlock d) = d := unpackBlock_packBlock d
  rw [← lanes_getElem]
  simp only [hlanes]

/-! Entries (R47) -/

section Entry

variable (v : LineView)

theorem LineView.pack_set : v.pack.extractLsb' 59 4 = v.set := by
  rw [LineView.pack]
  iterate 2 rw [extract_append_high _ _ _ _ (by decide)]
  exact BitVec.extractLsb'_append_eq_left

theorem LineView.pack_tag : v.pack.extractLsb' 33 26 = v.tag := by
  rw [LineView.pack]
  iterate 2 rw [extract_append_high _ _ _ _ (by decide)]
  exact BitVec.extractLsb'_append_eq_right

theorem LineView.pack_valid : v.pack.getLsbD 32 = v.valid := by
  rw [LineView.pack, bit_append_high _ _ _ (by decide), bit_append_low _ _ _ (by decide), BitVec.getLsbD_ofBool]
  rfl

theorem LineView.pack_data : v.pack.extractLsb' 0 32 = packBlock v.data :=
  BitVec.extractLsb'_append_eq_right

theorem LineView.pack_byte (k : Offset) : v.pack.extractLsb' (8 * k.toNat) 8 = v.data[k.toNat]'k.isLt := by
  have hk := k.isLt
  rw [← packBlock_byte, ← LineView.pack_data, extract_extract _ _ _ _ _ (by omega), Nat.zero_add]

theorem unpackLineView_pack : unpackLineView v.pack = v := by
  simp only [unpackLineView, v.pack_set, v.pack_tag, v.pack_valid, v.pack_data, unpackBlock_packBlock]

end Entry

/-! The DUMP response -/

/-- Settles O40: a slot below the count is a packed entry, and an entry shows a valid line. -/
theorem dumpResponseLayout : Obligations.DumpResponseLayout := by
  intro s r undriven h
  cases (respond_dump s).symm.trans h
  refine ⟨validViews_count s.lines, fun k hk => ?_, fun k v hv => ?_⟩
  · rw [DumpResponse.slot, List.getElem?_eq_none hk]
    rfl
  · rw [DumpResponse.slot, hv]
    obtain ⟨hvalid, hview⟩ := mem_validViews.1 (List.mem_of_getElem? hv)
    have hv1 : v.valid = true := (congrArg LineView.valid hview).trans hvalid
    exact ⟨v.pack_set, v.pack_tag, v.pack_valid.trans hv1, v.pack_byte⟩

/-! The READ response (R44, R45) -/

/-- Settles O38, a field at a time. -/
theorem readResponseLayout : Obligations.ReadResponseLayout := by
  intro r undriven
  rw [ReadResponse.pack]
  refine ⟨?_, ?_, ?_, ?_, ?_, fun t h => ?_, fun b h => ?_, fun b h => ?_⟩
  · iterate 6 rw [extract_append_high _ _ _ _ (by decide)]
    refine BitVec.extractLsb'_append_eq_left.trans ?_
    cases r.kind <;> rfl
  · iterate 6 rw [extract_append_high _ _ _ _ (by decide)]
    exact BitVec.extractLsb'_append_eq_right
  · iterate 5 rw [extract_append_high _ _ _ _ (by decide)]
    exact BitVec.extractLsb'_append_eq_right
  · iterate 4 rw [extract_append_high _ _ _ _ (by decide)]
    exact BitVec.extractLsb'_append_eq_right
  · iterate 3 rw [bit_append_high _ _ _ (by decide)]
    rw [bit_append_low _ _ _ (by decide), BitVec.getLsbD_ofBool]
    rfl
  · iterate 2 rw [extract_append_high _ _ _ _ (by decide)]
    rw [h]
    exact BitVec.extractLsb'_append_eq_right
  · rw [extract_append_high _ _ _ _ (by decide), h]
    exact BitVec.extractLsb'_append_eq_right
  · rw [h]
    exact BitVec.extractLsb'_append_eq_right

/-! The WRITE response (R46) -/

section Write

variable (r : WriteResponse) (undriven : BitVec 129)

theorem WriteResponse.pack_newLine : (r.pack undriven).extractLsb' 0 63 = r.newLine.pack :=
  BitVec.extractLsb'_append_eq_right

theorem WriteResponse.pack_snapshot {v : LineView} (h : r.snapshot = some v) :
    (r.pack undriven).extractLsb' 63 63 = v.pack := by
  rw [WriteResponse.pack, extract_append_high _ _ _ _ (by decide), h]
  exact BitVec.extractLsb'_append_eq_right

theorem WriteResponse.pack_evicted : (r.pack undriven).getLsbD 126 = r.evicted := by
  rw [WriteResponse.pack]
  iterate 2 rw [bit_append_high _ _ _ (by decide)]
  rw [bit_append_low _ _ _ (by decide), BitVec.getLsbD_ofBool]
  rfl

theorem WriteResponse.pack_kind : (r.pack undriven).extractLsb' 127 2 = r.kind.code := by
  rw [WriteResponse.pack]
  iterate 2 rw [extract_append_high _ _ _ _ (by decide)]
  exact BitVec.extractLsb'_append_eq_left

end Write

/-- The fields of an entry that stands at bits [base+62:base] of a response. -/
theorem entry_fields_at {n : Nat} {bits : BitVec n} {base : Nat} {v : LineView} (h : bits.extractLsb' base 63 = v.pack) :
    bits.extractLsb' (base + 59) 4 = v.set ∧ bits.extractLsb' (base + 33) 26 = v.tag
      ∧ bits.getLsbD (base + 32) = v.valid
      ∧ ∀ k : Offset, bits.extractLsb' (base + 8 * k.toNat) 8 = v.data[k.toNat]'k.isLt := by
  refine ⟨?_, ?_, ?_, fun k => ?_⟩
  · rw [← extract_extract _ base 63 59 4 (by decide), h, v.pack_set]
  · rw [← extract_extract _ base 63 33 26 (by decide), h, v.pack_tag]
  · rw [← bit_extract _ base 63 32 (by decide), h, v.pack_valid]
  · have hk := k.isLt
    rw [← extract_extract _ base 63 _ 8 (by omega), h, v.pack_byte]

/-- Settles O39: kind and eviction bit above two entries, the snapshot and the new line. -/
theorem writeResponseLayout : Obligations.WriteResponseLayout := by
  intro r undriven
  obtain ⟨hset, htag, hvalid, hbyte⟩ := entry_fields_at (r.pack_newLine undriven)
  refine ⟨?_, r.pack_evicted undriven, fun v h => entry_fields_at (r.pack_snapshot undriven h),
    hset, htag, hvalid, fun k => ?_⟩
  · rw [r.pack_kind]
    cases r.kind <;> rfl
  · rw [← hbyte, Nat.zero_add]

/-! Taking the fields back -/

theorem readKindOfCode_code (k : ReadKind) : readKindOfCode k.code = some k := by
  cases k <;> rfl

theorem writeKindOfCode_code (k : WriteKind) : writeKindOfCode k.code = some k := by
  cases k <;> rfl

/-- A field taken under the condition for its presence is the optional field. -/
theorem take_present {α : Type} {o : Option α} {p : Prop} [Decidable p] {x : α} (hp : o.isSome = true ↔ p)
    (hx : ∀ a, o = some a → x = a) : (if p then some x else none) = o := by
  cases o with
  | none => exact if_neg fun h => Bool.false_ne_true (hp.2 h)
  | some a => rw [if_pos (hp.1 rfl), hx a rfl]

/-- The presence conditions of READ's optional fields (D6). -/
theorem ReadResponse.Coherent.present {s : State} {r : ReadResponse} (h : r.Coherent s) :
    (r.storedTag.isSome = true ↔ r.storedValid = true) ∧ (r.storedByte.isSome = true ↔ r.storedValid = true)
      ∧ (r.byte.isSome = true ↔ r.kind = .hit) := by
  obtain ⟨hvalid, htag, hstored, -, -, hbyte⟩ := h
  rw [htag, hstored, hbyte, hvalid]
  simp

theorem unpackReadResponse_pack {s : State} {r : ReadResponse} (h : r.Coherent s) (undriven : BitVec 77) :
    unpackReadResponse (r.pack undriven) = some r := by
  obtain ⟨htag, hstored, hbyte⟩ := h.present
  obtain ⟨hkind, hset, hsearched, hoffset, hvalid, htagBits, hstoredBits, hbyteBits⟩ := readResponseLayout r undriven
  have hcode : (r.pack undriven).extractLsb' 75 2 = r.kind.code := by
    rw [hkind]
    cases r.kind <;> rfl
  rw [unpackReadResponse, hcode, readKindOfCode_code, Option.map_some, hset, hsearched, hoffset, hvalid,
    take_present htag htagBits, take_present hstored hstoredBits, take_present hbyte hbyteBits]

theorem unpackWriteResponse_pack {s : State} {r : WriteResponse} (h : r.Coherent s) (undriven : BitVec 129) :
    unpackWriteResponse (r.pack undriven) = some r := by
  obtain ⟨-, -, -, hsnapshot, -⟩ := h
  have hbits : ∀ v, r.snapshot = some v → unpackLineView ((r.pack undriven).extractLsb' 63 63) = v := fun v hv => by
    rw [r.pack_snapshot undriven hv, unpackLineView_pack]
  rw [unpackWriteResponse, r.pack_kind, writeKindOfCode_code, Option.map_some, r.pack_evicted, r.pack_newLine,
    unpackLineView_pack, take_present (by rw [hsnapshot]) hbits]

/-- Settles O41: what READ and WRITE return is coherent (`respond_coherent`), so each optional field is present exactly
under its condition. -/
theorem responseBitsRecoverResponse : Obligations.ResponseBitsRecoverResponse := by
  refine ⟨fun s addr r undriven h => ?_, fun s addr wdata r undriven h => ?_⟩
  · have hcoherent := respond_coherent (exec_read addr s)
    rw [h] at hcoherent
    exact unpackReadResponse_pack hcoherent undriven
  · have hcoherent := respond_coherent (exec_write_eq s addr wdata)
    rw [h] at hcoherent
    exact unpackWriteResponse_pack hcoherent undriven

end Sys2Proof.Machine
